-- ==== Sys2Proof/Word.lean ====
section
/-! DEFINITION. The two widths of the core (00_scope.md R5) and the names of its ten registers (10_state.md R20). -/

namespace Sys2Proof

/-- A byte: 8 bits, unsigned (00_scope.md, Notation). -/
abbrev Byte := BitVec 8

/-- A word: 16 bits, unsigned; the width of every register and of every address an instruction presents (R5). -/
abbrev Word := BitVec 16

/-- The closed set of register names, in register-id order (10_state.md R20, R21). -/
inductive RegName where
  | ip | acc | r1 | r2 | r3 | r4 | r5 | r6 | r7 | r8
  deriving DecidableEq, Repr

end Sys2Proof
end

