-- ==== Sys2Proof/Machine/Flags.lean ====
section
/-! DEFINITION. The ALU. The core has no flags or condition codes (10_state.md R28), so what stands here is the whole of its
arithmetic: a 16-bit adder and a 16-bit equality comparator (40_engine.md R91, 42_arithmetic.md R122). -/

namespace Sys2Proof.Machine

/-- The adder: unsigned, modulo 2^16, the carry out discarded (R121). -/
def aluAdd (a b : Word) : Word := a + b

/-- The comparator of JMP_NOT_EQ (43_control_transfer.md R130). -/
def aluNotEqual (a b : Word) : Bool := a != b

end Sys2Proof.Machine
end

