-- ==== Sys2Proof/Config.lean ====
section
/-! DEFINITION. What is fixed for a whole run: the parameters MEM_SIZE and OPCODE of 00_scope.md R6 and R7. They are
plain data that a state carries unchanged (log entries 1 and 2), so every statement about a state is a statement
about every memory size and every binding. The spec's default values stand in Decode.lean (`Config.standard`).
The spec leaves no value open (70_reset_and_hazards.md R172), so there is no free value here. -/

namespace Sys2Proof

/-- The six mnemonics of 30_encoding.md R64. -/
inductive Mnemonic where
  | movLitReg | movRegReg | movRegMem | movMemReg | addRegReg | jmpNotEq
  deriving DecidableEq, Repr

/-- The parameter OPCODE of 00_scope.md R7: the opcode byte of each mnemonic. -/
structure OpcodeMap where
  movLitReg : Byte
  movRegReg : Byte
  movRegMem : Byte
  movMemReg : Byte
  addRegReg : Byte
  jmpNotEq  : Byte
  deriving DecidableEq, Repr

/-- The parameters of a core (00_scope.md R6, R7). -/
structure Config where
  /-- MEM_SIZE, any natural number (R6). -/
  memSize : Nat
  /-- OPCODE (R7). -/
  opcodes : OpcodeMap
  deriving DecidableEq, Repr

end Sys2Proof
end

