-- ==== Sys2Proof/Syntax.lean ====
section
/-! DEFINITION. The instruction set: one constructor per row of spec/opcode_table.json (30_encoding.md R64), operands in
the order they are consumed. -/

namespace Sys2Proof

/-- An instruction with its operands decoded: a `lit16` or `addr16` operand is a word, a `reg8` operand the register
its id names (30_encoding.md R61, R62). -/
inductive Instr where
  /-- `MOV_LIT_REG #lit, dest` (R100). -/
  | movLitReg (lit : Word) (dest : RegName)
  /-- `MOV_REG_REG src, dest` (R101). -/
  | movRegReg (src dest : RegName)
  /-- `MOV_REG_MEM src, [addr]` (R102). -/
  | movRegMem (src : RegName) (addr : Word)
  /-- `MOV_MEM_REG [addr], dest` (R103). -/
  | movMemReg (addr : Word) (dest : RegName)
  /-- `ADD_REG_REG op1, op2` (R120). -/
  | addRegReg (op1 op2 : RegName)
  /-- `JMP_NOT_EQ #lit, target` (R130). -/
  | jmpNotEq (lit target : Word)
  deriving DecidableEq, Repr

end Sys2Proof
end

