-- ==== Sys2Proof/WellFormed.lean ====
section
/-! DEFINITION. The instructions the spec lets complete: every operand value is legal but for ADD_REG_REG, whose two
operands must be R1 or R2 (30_encoding.md R66, 42_arithmetic.md R120). An instruction that fails the check still has
an encoding and a meaning: it raises `UnsupportedOperand`. -/

namespace Sys2Proof

/-- R66, R120: legal operands. -/
def Instr.wellFormed : Instr → Bool
  | .movLitReg _ _ => true
  | .movRegReg _ _ => true
  | .movRegMem _ _ => true
  | .movMemReg _ _ => true
  | .addRegReg op1 op2 => (op1 == .r1 || op1 == .r2) && (op2 == .r1 || op2 == .r2)
  | .jmpNotEq _ _ => true

end Sys2Proof
end

