-- ==== Sys2Proof/Decode.lean ====
section
/-! DEFINITION. The encoding (30_encoding.md): byte order, register ids, opcode bytes and lengths; the decoder, total on
any source of bytes and rejecting by name; the encoder, written from the same layouts (R63); the host's
`decodeTableWord`. The decoder is written once over a `Source`, so that the same text decodes a list of bytes and
the bytes the core fetches at IP. -/

namespace Sys2Proof

/-! ### Byte order -/

/-- `w[15:8]`. -/
def wordHi (w : Word) : Byte := w.extractLsb' 8 8

/-- `w[7:0]`. -/
def wordLo (w : Word) : Byte := w.extractLsb' 0 8

/-- `hi ++ lo`, that is `(hi << 8) | lo` (20_memory.md R44, R47). -/
def wordOfBytes (hi lo : Byte) : Word := hi.setWidth 16 <<< 8 ||| lo.setWidth 16

/-- `zext_16(b)` (00_scope.md, Notation), used for fault info only. -/
def zext16 (b : Byte) : Word := b.setWidth 16

/-! ### Register ids (R62) -/

/-- The id byte of a register. -/
def RegName.id : RegName → Byte
  | .ip => 0x00
  | .acc => 0x01
  | .r1 => 0x02
  | .r2 => 0x03
  | .r3 => 0x04
  | .r4 => 0x05
  | .r5 => 0x06
  | .r6 => 0x07
  | .r7 => 0x08
  | .r8 => 0x09

/-- The register an id byte names; none for 0x0A to 0xFF. -/
def RegName.ofId (b : Byte) : Option RegName :=
  match b.toNat with
  | 0 => some .ip
  | 1 => some .acc
  | 2 => some .r1
  | 3 => some .r2
  | 4 => some .r3
  | 5 => some .r4
  | 6 => some .r5
  | 7 => some .r6
  | 8 => some .r7
  | 9 => some .r8
  | _ => none

/-- The registers ADD_REG_REG takes as operands: R1 and R2 (42_arithmetic.md R120). -/
def RegName.isAddOperand (r : RegName) : Bool :=
  r == .r1 || r == .r2

/-! ### Opcode bytes (R64, R65; 00_scope.md R7) -/

/-- `OPCODE(m)`. -/
def OpcodeMap.code (op : OpcodeMap) : Mnemonic → Byte
  | .movLitReg => op.movLitReg
  | .movRegReg => op.movRegReg
  | .movRegMem => op.movRegMem
  | .movMemReg => op.movMemReg
  | .addRegReg => op.addRegReg
  | .jmpNotEq => op.jmpNotEq

/-- The mnemonic an opcode byte selects; none for an illegal byte (R65). -/
def OpcodeMap.lookup (op : OpcodeMap) (b : Byte) : Option Mnemonic :=
  if b = op.movLitReg then some .movLitReg
  else if b = op.movRegReg then some .movRegReg
  else if b = op.movRegMem then some .movRegMem
  else if b = op.movMemReg then some .movMemReg
  else if b = op.addRegReg then some .addRegReg
  else if b = op.jmpNotEq then some .jmpNotEq
  else none

/-- The six opcode bytes. -/
def OpcodeMap.codes (op : OpcodeMap) : List Byte :=
  [op.movLitReg, op.movRegReg, op.movRegMem, op.movMemReg, op.addRegReg, op.jmpNotEq]

/-- R7: "Any binding a model takes must give six distinct bytes, and none of them may be 0xFF". -/
abbrev OpcodeMap.legal (op : OpcodeMap) : Prop :=
  op.codes.Nodup ∧ (0xFF : Byte) ∉ op.codes

/-- The spec's default binding (R7; UNVERIFIED against the repository, log entry 2). -/
def OpcodeMap.standard : OpcodeMap where
  movLitReg := 0x10
  movRegReg := 0x11
  movRegMem := 0x12
  movMemReg := 0x13
  addRegReg := 0x14
  jmpNotEq := 0x15

/-- The spec's default parameters: MEM_SIZE = 65536 (R6, log entry 1) and the default binding (R7, log entry 2). -/
def Config.standard : Config where
  memSize := 65536
  opcodes := OpcodeMap.standard

/-! ### Fetches and lengths (20_memory.md R51; R64, R67) -/

/-- The widths in bytes of an instruction's fetches, the opcode's first (R51). -/
def Mnemonic.fetchWidths : Mnemonic → List Nat
  | .movLitReg => [1, 2, 1]
  | .movRegReg => [1, 1, 1]
  | .movRegMem => [1, 1, 2]
  | .movMemReg => [1, 2, 1]
  | .addRegReg => [1, 1, 1]
  | .jmpNotEq => [1, 2, 2]

/-- The length of an instruction in bytes (R64). -/
def Mnemonic.length (m : Mnemonic) : Nat := m.fetchWidths.sum

/-- The opcode-table row of an instruction. -/
def Instr.mnemonic : Instr → Mnemonic
  | .movLitReg _ _ => .movLitReg
  | .movRegReg _ _ => .movRegReg
  | .movRegMem _ _ => .movRegMem
  | .movMemReg _ _ => .movMemReg
  | .addRegReg _ _ => .addRegReg
  | .jmpNotEq _ _ => .jmpNotEq

/-- The length of an instruction in bytes (R64). -/
def Instr.length (i : Instr) : Nat := i.mnemonic.length

/-- The addresses that fetches of these widths read, from IP on: each fetch starts at IP modulo 2^16, and within a
word fetch the second byte's address does not wrap (20_memory.md R50; 40_engine.md R80, R81). -/
def fetchAddresses (ip : Word) : List Nat → List Nat
  | [] => []
  | n :: ns => (List.range n).map (ip.toNat + ·) ++ fetchAddresses (ip + BitVec.ofNat 16 n) ns

/-! ### The decoder -/

/-- Where instruction bytes come from: a byte fetch and a word fetch, each giving what it read and what is left, or
`none` where it cannot read. -/
structure Source (σ : Type) where
  byte : σ → Option (Byte × σ)
  word : σ → Option (Word × σ)

/-- Why a decoder stops. -/
inductive Reject where
  /-- a fetch could not read -/
  | fetchFailed
  /-- the opcode byte is none of the six (R65) -/
  | invalidOpcode (b : Byte)
  /-- a `reg8` byte names no register (R62) -/
  | invalidRegisterId (b : Byte)
  /-- ADD_REG_REG's first operand is neither R1 nor R2, and its second cannot be read or names no register (R120) -/
  | unsupportedOperand (b : Byte)
  deriving DecidableEq, Repr

/-- The answer of a decoder: an instruction and the source after its last byte, or the first failing check and the
source at that check. -/
inductive Decoded (σ : Type) where
  | ok (i : Instr) (rest : σ)
  | reject (r : Reject) (rest : σ)
  deriving DecidableEq, Repr

/-- Consume a `lit16` or `addr16` operand (R61). -/
def Source.withWord {σ : Type} (src : Source σ) (s : σ) (k : Word → σ → Decoded σ) : Decoded σ :=
  match src.word s with
  | none => .reject .fetchFailed s
  | some (w, t) => k w t

/-- Consume a `reg8` operand and resolve it at once, before any later fetch (R61; 40_engine.md R84, R85). -/
def Source.withReg {σ : Type} (src : Source σ) (s : σ) (k : RegName → σ → Decoded σ) : Decoded σ :=
  match src.byte s with
  | none => .reject .fetchFailed s
  | some (b, t) =>
    match RegName.ofId b with
    | none => .reject (.invalidRegisterId b) t
    | some r => k r t

/-- 42_arithmetic.md R120: op1's check comes before op2's byte is fetched, so where op1 is not R1 or R2 nothing that
happens at op2 is reported. (Where op2 names a register too, the instruction is whole and its meaning raises.)
DEDUCED, log entry 7: reading op2's byte first can be seen by nobody. -/
def addRejectOrder {σ : Type} (op1 : RegName) (atOp1 : σ) : Decoded σ → Decoded σ
  | .ok i t => .ok i t
  | .reject r t => if op1.isAddOperand then .reject r t else .reject (.unsupportedOperand op1.id) atOp1

/-- The operands of each opcode, in the order they are consumed (R63, R64). -/
def decodeOperands {σ : Type} (src : Source σ) (s : σ) : Mnemonic → Decoded σ
  | .movLitReg => src.withWord s fun lit s => src.withReg s fun dest s => .ok (.movLitReg lit dest) s
  | .movRegReg => src.withReg s fun r s => src.withReg s fun dest s => .ok (.movRegReg r dest) s
  | .movRegMem => src.withReg s fun r s => src.withWord s fun addr s => .ok (.movRegMem r addr) s
  | .movMemReg => src.withWord s fun addr s => src.withReg s fun dest s => .ok (.movMemReg addr dest) s
  | .addRegReg =>
    src.withReg s fun op1 s => addRejectOrder op1 s (src.withReg s fun op2 s => .ok (.addRegReg op1 op2) s)
  | .jmpNotEq => src.withWord s fun lit s => src.withWord s fun target s => .ok (.jmpNotEq lit target) s

/-- The opcode byte selects the instruction (R64, R65; 40_engine.md R83). -/
def decodeFrom {σ : Type} (src : Source σ) (op : OpcodeMap) (s : σ) : Decoded σ :=
  match src.byte s with
  | none => .reject .fetchFailed s
  | some (b, t) =>
    match op.lookup b with
    | none => .reject (.invalidOpcode b) t
    | some m => decodeOperands src t m

/-- The first byte of a list. -/
def listByte : List Byte → Option (Byte × List Byte)
  | [] => none
  | b :: bs => some (b, bs)

/-- The first two bytes of a list as a big-endian word (R61). -/
def listWord : List Byte → Option (Word × List Byte)
  | hi :: lo :: bs => some (wordOfBytes hi lo, bs)
  | _ => none

/-- A list of bytes as a source. -/
def listSource : Source (List Byte) where
  byte := listByte
  word := listWord

/-- Decode the instruction at the head of a list of bytes. -/
def decode (op : OpcodeMap) (bytes : List Byte) : Decoded (List Byte) :=
  decodeFrom listSource op bytes

/-! ### The encoder -/

/-- The operand bytes of an instruction (R63). -/
def Instr.operandBytes : Instr → List Byte
  | .movLitReg lit dest => [wordHi lit, wordLo lit, dest.id]
  | .movRegReg src dest => [src.id, dest.id]
  | .movRegMem src addr => [src.id, wordHi addr, wordLo addr]
  | .movMemReg addr dest => [wordHi addr, wordLo addr, dest.id]
  | .addRegReg op1 op2 => [op1.id, op2.id]
  | .jmpNotEq lit target => [wordHi lit, wordLo lit, wordHi target, wordLo target]

/-- The bytes of an instruction (R60, R63). -/
def encode (op : OpcodeMap) (i : Instr) : List Byte :=
  op.code i.mnemonic :: i.operandBytes

/-! ### The host's view of an opcode-table word -/

/-- The five bytes of a table word of `nbits` bits, the first byte its lowest eight bits; five is the longest
instruction (R64). -/
def tableWordBytes (nbits w : Nat) : List Byte :=
  (List.range 5).map fun k => BitVec.ofNat 8 (w % 2 ^ nbits / 2 ^ (8 * k))

/-- What `decode` reads from a table word under the default binding. -/
def decodeTableWord (nbits w : Nat) : Option Instr :=
  match decode OpcodeMap.standard (tableWordBytes nbits w) with
  | .ok i _ => some i
  | .reject _ _ => none

end Sys2Proof
end

