-- ==== Sys2Proof/Machine/State.lean ====
section
/-! DEFINITION. The state of the core as plain data (10_state.md R20 to R35), the reasons a step can stop, and the state
after reset. Operations over it are in Ops.lean. -/

namespace Sys2Proof.Machine

/-- The four kinds of fault (60_exceptions.md R140). Each is latched in STATUS by `State.enterFault`, and the step
that raises it answers a NEXT state (R143): no step answers `Host.Outcome.fault` (log entry 5; safe). -/
inductive Fault where
  /-- An access outside memory: a fetch of any instruction, or the data access of MOV_REG_MEM or MOV_MEM_REG.
  Safe: the spec describes the entry, and the model takes it. -/
  | outOfBoundsAddress
  /-- An opcode byte that is none of the six: dispatch. Safe, as above. -/
  | invalidOpcode
  /-- A `reg8` byte above 0x09: `Resolve` in the moves and ADD_REG_REG. Safe, as above. -/
  | invalidRegisterId
  /-- An operand of ADD_REG_REG that is neither R1 nor R2: ADD_REG_REG only. Safe, as above. -/
  | unsupportedOperand
  deriving DecidableEq, Repr

/-- Why the model gives an instruction no meaning. -/
inductive Refusal where
  /-- Raised by an arm of `exec` whose instruction has no meaning yet. Safe: the step stops. No arm raises it. -/
  | notModelled (mnemonic : String)
  deriving DecidableEq, Repr

/-- `STATUS.state` (R27). -/
inductive RunState where
  | running
  | faulted
  deriving DecidableEq, Repr

/-- The status register (R27). It has no register id: no instruction reads or writes it. -/
structure Status where
  /-- whether the core accepts further steps -/
  state : RunState
  /-- the kind of the latched fault; `none` is the code 0 (R141; log entry 9) -/
  kind : Option Fault
  /-- the offending value of the latched fault (R142) -/
  info : Word
  /-- IP at the start of the faulting step -/
  faultPc : Word
  deriving DecidableEq, Repr

/-- The register file (R20). -/
structure Regs where
  ip  : Word
  acc : Word
  r1  : Word
  r2  : Word
  r3  : Word
  r4  : Word
  r5  : Word
  r6  : Word
  r7  : Word
  r8  : Word
  deriving DecidableEq, Repr

/-- Memory (R29, R31): the bytes that are not 0x00, which is what an unlisted address reads as (R34). -/
abbrev Memory := List Host.Cell

/-- The canonical form: addresses strictly rising, and no entry that an unlisted address would read as. -/
abbrev Memory.wf (m : Memory) : Prop :=
  m.Pairwise (fun c d => c.1 < d.1) ∧ ∀ c ∈ m, c.2 ≠ 0

/-- One output `WRITE_EVENT(addr, value)` (00_scope.md R8, 20_memory.md R48). -/
structure WriteEvent where
  addr  : Word
  value : Word
  deriving DecidableEq, Repr

/-- The state of the core (R35), with the parameters it runs under and the outputs it has made. -/
structure State where
  /-- the parameters MEM_SIZE and OPCODE: no transaction changes them (R35; log entries 1, 2) -/
  cfg : Config
  /-- the ten registers (R20) -/
  regs : Regs
  /-- the memory array (R29) -/
  mem : Memory
  /-- STATUS (R27) -/
  status : Status
  /-- the hidden bit that ends the boot phase (R32) -/
  started : Bool
  /-- the WRITE_EVENT outputs since RESET, oldest first; nothing reads them (R48; log entry 3) -/
  writeEvents : List WriteEvent
  deriving DecidableEq, Repr

/-- All ten registers 0x0000 (R34). -/
def Regs.zero : Regs := ⟨0, 0, 0, 0, 0, 0, 0, 0, 0, 0⟩

/-- STATUS after reset (R34). -/
def Status.running : Status := ⟨.running, none, 0, 0⟩

/-- The state after RESET of a core with these parameters (R34; 70_reset_and_hazards.md R160). -/
def State.resetOf (c : Config) : State where
  cfg := c
  regs := Regs.zero
  mem := []
  status := Status.running
  started := false
  writeEvents := []

/-- The state after RESET of a core with the spec's default parameters (R6, R7, R34). -/
def State.reset : State := State.resetOf Config.standard

end Sys2Proof.Machine
end

