-- ==== Sys2Proof/Machine/Ops.lean ====
section
/-! DEFINITION. The named operations over registers, memory and STATUS: the register file (10_state.md R23), the four
memory primitives (20_memory.md R42 to R45), the write output (R48), entering the fault state (60_exceptions.md R143)
and the one way out of it, RESET (R145; 70_reset_and_hazards.md R160). -/

namespace Sys2Proof.Machine

/-! ### Registers -/

/-- Read a register of the file. -/
def Regs.get (x : Regs) : RegName → Word
  | .ip => x.ip
  | .acc => x.acc
  | .r1 => x.r1
  | .r2 => x.r2
  | .r3 => x.r3
  | .r4 => x.r4
  | .r5 => x.r5
  | .r6 => x.r6
  | .r7 => x.r7
  | .r8 => x.r8

/-- Write a register of the file: all 16 bits, unconditionally (R23). -/
def Regs.set (x : Regs) (r : RegName) (v : Word) : Regs :=
  match r with
  | .ip => { x with ip := v }
  | .acc => { x with acc := v }
  | .r1 => { x with r1 := v }
  | .r2 => { x with r2 := v }
  | .r3 => { x with r3 := v }
  | .r4 => { x with r4 := v }
  | .r5 => { x with r5 := v }
  | .r6 => { x with r6 := v }
  | .r7 => { x with r7 := v }
  | .r8 => { x with r8 := v }

/-- `x[r]`. -/
def State.reg (s : State) (r : RegName) : Word := s.regs.get r

/-- `x[r] <- v`. -/
def State.setReg (s : State) (r : RegName) (v : Word) : State := { s with regs := s.regs.set r v }

/-- IP after fetches of `n` bytes, modulo 2^16 (40_engine.md R80, R81, R90). -/
def State.advance (s : State) (n : Nat) : State := s.setReg .ip (s.reg .ip + BitVec.ofNat 16 n)

/-! ### Memory -/

/-- The byte at an address; an unlisted address reads as 0x00 (R34). -/
def Memory.get : Memory → Nat → Byte
  | [], _ => 0
  | (k, v) :: m, a => if k = a then v else Memory.get m a

/-- Put a byte at an address, keeping the canonical form. -/
def Memory.set : Memory → Nat → Byte → Memory
  | [], a, b => if b = 0 then [] else [(a, b)]
  | (k, v) :: m, a, b =>
    if k < a then (k, v) :: Memory.set m a b
    else if k = a then (if b = 0 then m else (a, b) :: m)
    else (if b = 0 then (k, v) :: m else (a, b) :: (k, v) :: m)

/-- `mem[a]`. -/
def State.byte (s : State) (a : Nat) : Byte := s.mem.get a

/-- `MemRead(a, 1)`; none where it raises `OutOfBoundsAddress(a)` (R42). -/
def State.memRead8 (s : State) (a : Nat) : Option Byte :=
  if s.cfg.memSize ≤ a then none else some (s.byte a)

/-- `MemWrite(a, 1, v)`; none where it raises (R43). -/
def State.memWrite8 (s : State) (a : Nat) (v : Byte) : Option State :=
  if s.cfg.memSize ≤ a then none else some { s with mem := s.mem.set a v }

/-- `MemRead(a, 2)`, big-endian, the bound checked without wrap; none where it raises (R44, R47, R50). -/
def State.memRead16 (s : State) (a : Nat) : Option Word :=
  if s.cfg.memSize ≤ a + 1 then none else some (wordOfBytes (s.byte a) (s.byte (a + 1)))

/-- `MemWrite(a, 2, v)`: both bytes or, where it raises, neither (R45). -/
def State.memWrite16 (s : State) (a : Nat) (v : Word) : Option State :=
  if s.cfg.memSize ≤ a + 1 then none
  else some { s with mem := (s.mem.set a (wordHi v)).set (a + 1) (wordLo v) }

/-- `emit WRITE_EVENT(a, v)` (R48). -/
def State.emit (s : State) (a v : Word) : State :=
  { s with writeEvents := s.writeEvents ++ [⟨a, v⟩] }

/-! ### STATUS, the boot phase and RESET -/

/-- A step has been accepted (40_engine.md R82; 10_state.md R32). -/
def State.begin (s : State) : State := { s with started := true }

/-- Enter the fault state: STATUS takes the kind, the info and the address of the faulting instruction's opcode;
registers and memory stay as they are (60_exceptions.md R143). -/
def State.enterFault (s : State) (k : Fault) (info start : Word) : State :=
  { s with status := ⟨.faulted, some k, info, start⟩ }

/-- RESET, accepted in every state; the only way out of the fault state (R145, R160). -/
def State.resetCore (s : State) : State := State.resetOf s.cfg

/-- The number of a fault kind (R141). -/
def Fault.code : Fault → BitVec 3
  | .outOfBoundsAddress => 1
  | .invalidOpcode => 2
  | .invalidRegisterId => 3
  | .unsupportedOperand => 4

/-- `STATUS.kind` as the number SNAPSHOT shows (R27, R141). -/
def Status.code (st : Status) : BitVec 3 :=
  match st.kind with
  | none => 0
  | some k => k.code

end Sys2Proof.Machine
end

