-- ==== Sys2Proof/Machine/Operands.lean ====
section
/-! DEFINITION. Operand fetch: the two fetch primitives (40_engine.md R80, R81), memory at IP as the decoder's source, and
what a rejected fetch raises (60_exceptions.md R142). The three operand kinds lit16, addr16 and reg8 (30_encoding.md
R61) are `Source.withWord` and `Source.withReg` of Decode.lean. -/

namespace Sys2Proof.Machine

/-- `Fetch8()`: the read comes first, so a fetch that fails does not advance IP (R80). -/
def State.fetch8 (s : State) : Option (Byte × State) :=
  match s.memRead8 (s.reg .ip).toNat with
  | none => none
  | some b => some (b, s.advance 1)

/-- `Fetch16()` (R81). -/
def State.fetch16 (s : State) : Option (Word × State) :=
  match s.memRead16 (s.reg .ip).toNat with
  | none => none
  | some w => some (w, s.advance 2)

/-- The bytes at IP as a source of instruction bytes. -/
def memorySource : Source State where
  byte := State.fetch8
  word := State.fetch16

/-- Fetch and decode the instruction at IP, with every check that comes before its last operand byte is resolved, in
execution order (R85, R89). -/
def State.fetchInstr (s : State) : Decoded State := decodeFrom memorySource s.cfg.opcodes s

/-- The fault of a rejected fetch in the state it stopped in, with its info (R140, R142). -/
def State.rejectFault (t : State) : Reject → Fault × Word
  | .fetchFailed => (.outOfBoundsAddress, t.reg .ip)
  | .invalidOpcode b => (.invalidOpcode, zext16 b)
  | .invalidRegisterId b => (.invalidRegisterId, zext16 b)
  | .unsupportedOperand b => (.unsupportedOperand, zext16 b)

/-- Raise the fault of a rejected fetch: IP stays past the completed fetches (R88), STATUS is latched (R143). -/
def State.raiseReject (t : State) (r : Reject) (start : Word) : State :=
  t.enterFault (t.rejectFault r).1 (t.rejectFault r).2 start

end Sys2Proof.Machine
end

