-- ==== Sys2Proof/Machine/Arithmetic.lean ====
section
/-! DEFINITION. The arithmetic instruction (42_arithmetic.md). Its meaning starts as those of DataMovement.lean do. -/

namespace Sys2Proof.Machine

/-- ADD_REG_REG (R120): ACC takes the sum; an operand other than R1 and R2 raises `UnsupportedOperand`, op1 first, with
IP just past the byte that names it. -/
def execAddRegReg (op1 op2 : RegName) (s : State) : Host.Outcome State Fault Refusal :=
  if !op1.isAddOperand then
    .next ((s.advance 2).enterFault .unsupportedOperand (zext16 op1.id) (s.reg .ip))
  else if !op2.isAddOperand then
    .next ((s.advance Mnemonic.addRegReg.length).enterFault .unsupportedOperand (zext16 op2.id) (s.reg .ip))
  else
    let s1 := s.advance Mnemonic.addRegReg.length
    .next (s1.setReg .acc (aluAdd (s1.reg op1) (s1.reg op2)))

end Sys2Proof.Machine
end

