-- ==== Sys2Proof/Machine/ControlTransfer.lean ====
section
/-! DEFINITION. Control transfer (43_control_transfer.md). Its meaning starts as those of DataMovement.lean do. -/

namespace Sys2Proof.Machine

/-- JMP_NOT_EQ (R130): IP takes the target when the literal differs from ACC; the target is not checked (R132). -/
def execJmpNotEq (lit target : Word) (s : State) : Host.Outcome State Fault Refusal :=
  let s1 := s.advance Mnemonic.jmpNotEq.length
  .next (if aluNotEqual lit (s1.reg .acc) then s1.setReg .ip target else s1)

end Sys2Proof.Machine
end

