-- ==== Sys2Proof/Machine/DataMovement.lean ====
section
/-! DEFINITION. The four move instructions (41_data_movement.md). A meaning starts in the state at the instruction's start,
IP at its opcode byte and its bytes already fetched without a fault; the fetches' advance of IP is its first effect. -/

namespace Sys2Proof.Machine

/-- MOV_LIT_REG (R100): `dest = literal`. -/
def execMovLitReg (lit : Word) (dest : RegName) (s : State) : Host.Outcome State Fault Refusal :=
  .next ((s.advance Mnemonic.movLitReg.length).setReg dest lit)

/-- MOV_REG_REG (R101): `dest = value(src)`, the source read after the fetches (40_engine.md R86). -/
def execMovRegReg (src dest : RegName) (s : State) : Host.Outcome State Fault Refusal :=
  let s1 := s.advance Mnemonic.movRegReg.length
  .next (s1.setReg dest (s1.reg src))

/-- MOV_REG_MEM (R102): store a word and emit its WRITE_EVENT, or raise `OutOfBoundsAddress(addr)`. -/
def execMovRegMem (src : RegName) (addr : Word) (s : State) : Host.Outcome State Fault Refusal :=
  let s1 := s.advance Mnemonic.movRegMem.length
  match s1.memWrite16 addr.toNat (s1.reg src) with
  | some t => .next (t.emit addr (s1.reg src))
  | none => .next (s1.enterFault .outOfBoundsAddress addr (s.reg .ip))

/-- MOV_MEM_REG (R103): load a word, or raise `OutOfBoundsAddress(addr)`. -/
def execMovMemReg (addr : Word) (dest : RegName) (s : State) : Host.Outcome State Fault Refusal :=
  let s1 := s.advance Mnemonic.movMemReg.length
  match s1.memRead16 addr.toNat with
  | some v => .next (s1.setReg dest v)
  | none => .next (s1.enterFault .outOfBoundsAddress addr (s.reg .ip))

end Sys2Proof.Machine
end

