-- ==== Sys2Proof/Machine/Dispatch.lean ====
section
/-! DEFINITION. One arm per instruction (40_engine.md R83). -/

namespace Sys2Proof.Machine

/-- The meaning of a decoded instruction in the state at its start. -/
def exec (i : Instr) (s : State) : Host.Outcome State Fault Refusal :=
  match i with
  | .movLitReg lit dest => Sys2Proof.Machine.execMovLitReg lit dest s
  | .movRegReg src dest => Sys2Proof.Machine.execMovRegReg src dest s
  | .movRegMem src addr => Sys2Proof.Machine.execMovRegMem src addr s
  | .movMemReg addr dest => Sys2Proof.Machine.execMovMemReg addr dest s
  | .addRegReg op1 op2 => Sys2Proof.Machine.execAddRegReg op1 op2 s
  | .jmpNotEq lit target => Sys2Proof.Machine.execJmpNotEq lit target s

end Sys2Proof.Machine
end

