-- ==== Sys2Proof/Machine/Step.lean ====
section
/-! DEFINITION. The step (40_engine.md R82), and the placing of one instruction where the step fetches it. -/

namespace Sys2Proof.Machine

/-- One STEP transaction (R82). In the fault state nothing changes (60_exceptions.md R143); else the step is accepted,
and the instruction at IP is fetched and executed, or the fault of its fetch is taken. -/
def step (s : State) : Host.Outcome State Fault Refusal :=
  match s.status.state with
  | .faulted => .next s
  | .running =>
    match s.begin.fetchInstr with
    | .ok i _ => exec i s.begin
    | .reject r t => .next (t.raiseReject r (s.reg .ip))

/-- Put bytes at addresses, pair by pair; an address outside memory takes none. -/
def State.placeBytes (s : State) : List (Nat × Byte) → State
  | [] => s
  | (a, b) :: cells => ((s.memWrite8 a b).getD s).placeBytes cells

/-- `s` running, with a table word's instruction at the addresses its fetches from IP read. A word whose first byte is
no opcode is one byte long. It stands for the host's LOAD_MEM before the first step (log entry 6). -/
def State.withFetchWord (s : State) (nbits w : Nat) : State :=
  let bytes := tableWordBytes nbits w
  let widths := ((s.cfg.opcodes.lookup (bytes.headD 0)).map Mnemonic.fetchWidths).getD [1]
  let r := if s.status.state = .running then s else { s with status := Status.running }
  r.placeBytes ((fetchAddresses (s.reg .ip) widths).zip bytes)

end Sys2Proof.Machine
end

