-- ==== Sys2Proof/Machine/Pseudocode.lean ====
section
/-! DEFINITION. The spec's own pseudocode, line by line: Fetch8, Fetch16, Resolve, the six handlers, Dispatch and Step
(40_engine.md R80 to R84; 41, 42, 43: R100 to R103, R120, R130). The machine's step decodes first and gives each decoded
instruction its meaning; this text interleaves fetch, check and effect as the spec writes them. Nothing of the machine
calls it: it is what the machine is held against (Obligations.StepIsTheSpecPseudocode). -/

namespace Sys2Proof.Machine

/-- A piece of pseudocode: it reads and writes the state, and may raise a fault kind with its info; a raise keeps the
state written so far (00_scope.md, Notation). -/
abbrev Micro := ExceptT (Fault × Word) (StateM State)

/-- `MemRead` of a fetch or of MOV_MEM_REG: the value read, or the raise of `OutOfBoundsAddress(a)`. -/
def microRead {α : Type} (a : Word) (v : Option α) : Micro α :=
  match v with
  | none => throw (.outOfBoundsAddress, a)
  | some x => pure x

/-- R80. -/
def microFetch8 : Micro Byte := do
  let pc := (← get).reg .ip
  let b ← microRead pc ((← get).memRead8 pc.toNat)
  modify fun s => s.setReg .ip (pc + 1)
  return b

/-- R81. -/
def microFetch16 : Micro Word := do
  let pc := (← get).reg .ip
  let w ← microRead pc ((← get).memRead16 pc.toNat)
  modify fun s => s.setReg .ip (pc + 2)
  return w

/-- R84. -/
def microResolve (b : Byte) : Micro RegName :=
  match RegName.ofId b with
  | none => throw (.invalidRegisterId, zext16 b)
  | some r => pure r

/-- `if r not in {R1, R2}: raise UnsupportedOperand(b)` (R120). -/
def microAddOperand (r : RegName) (b : Byte) : Micro Unit :=
  if r = .r1 ∨ r = .r2 then pure () else throw (.unsupportedOperand, zext16 b)

/-- R100. -/
def microMovLitReg : Micro Unit := do
  let lit ← microFetch16
  let db ← microFetch8
  let d ← microResolve db
  modify fun s => s.setReg d lit

/-- R101. -/
def microMovRegReg : Micro Unit := do
  let sb ← microFetch8
  let src ← microResolve sb
  let db ← microFetch8
  let d ← microResolve db
  let v := (← get).reg src
  modify fun s => s.setReg d v

/-- R102. -/
def microMovRegMem : Micro Unit := do
  let sb ← microFetch8
  let src ← microResolve sb
  let a ← microFetch16
  let v := (← get).reg src
  let t ← microRead a ((← get).memWrite16 a.toNat v)
  set (t.emit a v)

/-- R103. -/
def microMovMemReg : Micro Unit := do
  let a ← microFetch16
  let db ← microFetch8
  let d ← microResolve db
  let v ← microRead a ((← get).memRead16 a.toNat)
  modify fun s => s.setReg d v

/-- R120. -/
def microAddRegReg : Micro Unit := do
  let b1 ← microFetch8
  let op1 ← microResolve b1
  microAddOperand op1 b1
  let b2 ← microFetch8
  let op2 ← microResolve b2
  microAddOperand op2 b2
  modify fun s => s.setReg .acc (BitVec.ofNat 16 (((s.reg op1).toNat + (s.reg op2).toNat) % 2 ^ 16))

/-- R130. -/
def microJmpNotEq : Micro Unit := do
  let lit ← microFetch16
  let target ← microFetch16
  if lit ≠ (← get).reg .acc then
    modify fun s => s.setReg .ip target

/-- R83. -/
def microDispatch (opc : Byte) : Micro Unit := do
  match (← get).cfg.opcodes.lookup opc with
  | some .movLitReg => microMovLitReg
  | some .movRegReg => microMovRegReg
  | some .movRegMem => microMovRegMem
  | some .movMemReg => microMovMemReg
  | some .addRegReg => microAddRegReg
  | some .jmpNotEq => microJmpNotEq
  | none => throw (.invalidOpcode, zext16 opc)

/-- R82: the state after `Step()`. -/
def microStep (s : State) : State :=
  if s.status.state = .faulted then s
  else
    match (microFetch8 >>= microDispatch).run s.begin with
    | (.ok _, t) => t
    | (.error (k, info), t) => t.enterFault k info (s.reg .ip)

end Sys2Proof.Machine
end

