-- ==== Sys2Proof/Machine/Transactions.lean ====
section
/-! DEFINITION. The core's interface (00_scope.md R8; 70_reset_and_hazards.md R162 to R167): the transactions a host may
make, their effect and their reply. WRITE_EVENT is the output `State.writeEvents`. -/

namespace Sys2Proof.Machine

/-- What SNAPSHOT shows: the registers, STATUS and memory (R8, R167). -/
structure Snapshot where
  regs   : Regs
  status : Status
  mem    : Memory
  deriving DecidableEq, Repr

/-- What the host may ask of the core between steps (R8). -/
inductive Transaction where
  | reset
  | loadMem (addr : Nat) (value : Byte)
  | loadReg (r : RegName) (value : Word)
  | step
  | snapshot
  deriving DecidableEq, Repr

/-- What the core answers (R8, R162, R163, R167). -/
inductive Reply where
  | done
  /-- a load outside the boot phase (R162) -/
  | refused
  /-- a LOAD_MEM outside memory; the fault is the host's, not a step's (R163) -/
  | loadOutOfBounds (addr : Nat)
  /-- a STEP that completed -/
  | ok
  /-- a STEP that faulted, or one in the fault state -/
  | fault (kind : Fault) (info : Word)
  | snapshot (v : Snapshot)
  deriving DecidableEq, Repr

/-- The reply of a STEP that leaves the core with this status (40_engine.md R82). -/
def Status.reply (st : Status) : Reply :=
  match st.state, st.kind with
  | .faulted, some k => .fault k st.info
  | _, _ => .ok

/-- SNAPSHOT (R8). -/
def State.snapshot (s : State) : Snapshot := ⟨s.regs, s.status, s.mem⟩

/-- LOAD_MEM (R162, R163). Its address is a natural number (DEDUCED, log entry 8). -/
def State.loadMem (s : State) (addr : Nat) (value : Byte) : Reply × State :=
  if s.started then (.refused, s)
  else match s.memWrite8 addr value with
    | none => (.loadOutOfBounds addr, s)
    | some t => (.done, t)

/-- LOAD_REG (R162, R164). -/
def State.loadReg (s : State) (r : RegName) (value : Word) : Reply × State :=
  if s.started then (.refused, s) else (.done, s.setReg r value)

/-- A STEP with its reply; a step that stopped would stop the transaction. -/
def State.stepReply (s : State) : Host.Outcome (Reply × State) Fault Refusal :=
  match step s with
  | .next t => .next (t.status.reply, t)
  | .fault r => .fault r
  | .refused r => .refused r

/-- One transaction: its reply and the state after it (R8, R9). -/
def transact (s : State) : Transaction → Host.Outcome (Reply × State) Fault Refusal
  | .reset => .next (.done, s.resetCore)
  | .loadMem addr value => .next (s.loadMem addr value)
  | .loadReg r value => .next (s.loadReg r value)
  | .step => s.stepReply
  | .snapshot => .next (.snapshot s.snapshot, s)

end Sys2Proof.Machine
end

