-- ==== Sys2Proof/Safety.lean ====
section
/-! DEFINITION. What counts as a well-formed state, and what a faulting step leaves behind, in the terms the claims use. -/

namespace Sys2Proof.Machine

/-- The info values a latched fault can hold (60_exceptions.md R142): an access whose last byte lies outside memory, a
byte that is no opcode, a byte that is no register id, the id of a register other than R1 and R2. -/
def Fault.infoOk (c : Config) (info : Word) : Fault → Bool
  | .outOfBoundsAddress => decide (c.memSize ≤ info.toNat + 1)
  | .invalidOpcode => decide (info.toNat ≤ 0xFF) && (c.opcodes.lookup (info.setWidth 8)).isNone
  | .invalidRegisterId => decide (0x0A ≤ info.toNat) && decide (info.toNat ≤ 0xFF)
  | .unsupportedOperand => decide (info.toNat ≤ 0x09) && info != 0x02 && info != 0x03

/-- STATUS as the core can hold it (10_state.md R27): the kind is none exactly when RUNNING, and then the other fields
are 0; when FAULTED the info is one the kind can have. -/
def Status.wf (c : Config) (st : Status) : Bool :=
  match st.state, st.kind with
  | .running, none => st.info == 0 && st.faultPc == 0
  | .faulted, some k => k.infoOk c st.info
  | _, _ => false

/-- The invariant of the machine: a legal opcode binding (R7), memory in canonical form and inside the array (R29, R31),
a STATUS the core can hold (R27, R142), a fault only after the first step (R32), an output only after the first step
(R32, and since RESET empties the list: DESIGN CHOICE, log entry 3), and every output that of a store inside memory
(R48). -/
abbrev State.Inv (s : State) : Prop :=
  s.cfg.opcodes.legal ∧
  s.mem.wf ∧
  (∀ c ∈ s.mem, c.1 < s.cfg.memSize) ∧
  s.status.wf s.cfg = true ∧
  (s.status.state = .faulted → s.started = true) ∧
  (s.started = false → s.writeEvents = []) ∧
  ∀ e ∈ s.writeEvents, e.addr.toNat + 1 < s.cfg.memSize

/-- The state in which an instruction that starts in `s` and raises `k(info)` with IP at `ip` stops: nothing but IP and
STATUS has changed (40_engine.md R88, 60_exceptions.md R143). -/
def State.faultedAt (s : State) (ip : Word) (k : Fault) (info : Word) : State :=
  (s.setReg .ip ip).enterFault k info (s.reg .ip)

/-- From `s` to `t` nothing has changed but, perhaps, the registers named. -/
abbrev State.keepsAllBut (s t : State) (written : List RegName) : Prop :=
  (∀ r, r ∉ written → t.reg r = s.reg r) ∧
  (∀ a, t.byte a = s.byte a) ∧
  t.status = s.status ∧ t.started = s.started ∧ t.writeEvents = s.writeEvents ∧ t.cfg = s.cfg

/-- The bytes at the addresses that the fetches of `i` from IP read are inside memory and are the encoding of `i`
(20_memory.md R51, 30_encoding.md R63). -/
abbrev State.holdsAtIp (s : State) (i : Instr) : Prop :=
  ∀ c ∈ (fetchAddresses (s.reg .ip) i.mnemonic.fetchWidths).zip (encode s.cfg.opcodes i),
    c.1 < s.cfg.memSize ∧ s.byte c.1 = c.2

end Sys2Proof.Machine
end

