-- ==== Sys2Proof/Certificates/Slice0/Obligations.lean ====
section
/-! DEFINITION. The statements for the provers. `s` is any state, so every statement holds for every memory size and, unless
it says `legal`, for every opcode binding (log entries 1 and 2). Where a docstring says "decision D<n>", the rule it rests
on is marked in spec/ as the spec's own decision (log entry 4). Sums of IP are modulo 2^16 throughout (decision D4).
`s.begin` is `s` with `started` set (10_state.md R32, decision D11). A fault is a next state (log entry 5). -/

open Sys2Proof Sys2Proof.Machine

/-! ### Encoding -/

/-- 30_encoding.md, Formats (R63) and Opcode map (R64): every instruction, with every operand value, decodes from its own
encoding, whatever follows it; that ADD_REG_REG of any two registers does is log entry 7. -/
def Obligations.DecodeInvertsEncode : Prop :=
  ∀ (op : OpcodeMap) (i : Instr) (rest : List Byte), op.legal →
    decode op (encode op i ++ rest) = .ok i rest

/-- The other direction: bytes that decode to an instruction (which an ADD_REG_REG of any two registers is: log entry 7) are
its encoding; no bit of them is dropped or ignored. -/
def Obligations.DecodedBytesAreTheEncoding : Prop :=
  ∀ (op : OpcodeMap) (bytes rest : List Byte) (i : Instr),
    decode op bytes = .ok i rest → bytes = encode op i ++ rest

/-- 30_encoding.md R65, R66 and 40_engine.md R83: an opcode byte is illegal exactly when it is none of the six; 0xFF always
is; under the default binding (from general knowledge, log entry 2) the illegal bytes are 0x00 to 0x0F and 0x16 to
0xFF. -/
def Obligations.IllegalOpcodesAreRejected : Prop :=
  (∀ (op : OpcodeMap) (b : Byte) (bytes : List Byte), b ∉ op.codes →
    decode op (b :: bytes) = .reject (.invalidOpcode b) bytes) ∧
  (∀ (op : OpcodeMap) (m : Mnemonic) (bytes rest : List Byte) (b : Byte),
    decode op (op.code m :: bytes) ≠ .reject (.invalidOpcode b) rest) ∧
  (∀ (op : OpcodeMap) (bytes : List Byte), op.legal →
    decode op (0xFF :: bytes) = .reject (.invalidOpcode 0xFF) bytes) ∧
  ∀ b : Byte, b ∉ OpcodeMap.standard.codes ↔ b.toNat ≤ 0x0F ∨ 0x16 ≤ b.toNat

/-- R62: the register-id map, and that each `reg8` field of each of the five instructions that have one is decoded through
it: a byte `b` in the field gives the register it names, or `InvalidRegisterId(b)` where it names none (the other
field of a two-register instruction names a register, and R1 or R2 where an ADD_REG_REG's second field names none). That an ADD_REG_REG of any two registers is decoded is the model's (log entry 7); that `b` in the first field is
reported whatever the second holds, and in the second only behind a first that passes, is the order of checks
(40_engine.md R84, R85, decision D5). -/
def Obligations.RegisterFieldsGoThroughOneMap : Prop :=
  (RegName.ofId 0x00 = some .ip ∧ RegName.ofId 0x01 = some .acc ∧ RegName.ofId 0x02 = some .r1 ∧
    RegName.ofId 0x03 = some .r2 ∧ RegName.ofId 0x04 = some .r3 ∧ RegName.ofId 0x05 = some .r4 ∧
    RegName.ofId 0x06 = some .r5 ∧ RegName.ofId 0x07 = some .r6 ∧ RegName.ofId 0x08 = some .r7 ∧
    RegName.ofId 0x09 = some .r8) ∧
  (∀ b : Byte, 0x0A ≤ b.toNat → RegName.ofId b = none) ∧
  ∀ (op : OpcodeMap) (hi lo b : Byte) (q : RegName), op.legal →
    match RegName.ofId b with
    | some r =>
      decode op [op.movLitReg, hi, lo, b] = .ok (.movLitReg (wordOfBytes hi lo) r) [] ∧
      decode op [op.movMemReg, hi, lo, b] = .ok (.movMemReg (wordOfBytes hi lo) r) [] ∧
      decode op [op.movRegMem, b, hi, lo] = .ok (.movRegMem r (wordOfBytes hi lo)) [] ∧
      decode op [op.movRegReg, b, q.id] = .ok (.movRegReg r q) [] ∧
      decode op [op.movRegReg, q.id, b] = .ok (.movRegReg q r) [] ∧
      decode op [op.addRegReg, b, q.id] = .ok (.addRegReg r q) [] ∧
      decode op [op.addRegReg, q.id, b] = .ok (.addRegReg q r) []
    | none =>
      (∃ rest, decode op [op.movLitReg, hi, lo, b] = .reject (.invalidRegisterId b) rest) ∧
      (∃ rest, decode op [op.movMemReg, hi, lo, b] = .reject (.invalidRegisterId b) rest) ∧
      (∃ rest, decode op [op.movRegMem, b, hi, lo] = .reject (.invalidRegisterId b) rest) ∧
      (∃ rest, decode op [op.movRegReg, b, q.id] = .reject (.invalidRegisterId b) rest) ∧
      (∃ rest, decode op [op.movRegReg, q.id, b] = .reject (.invalidRegisterId b) rest) ∧
      (∃ rest, decode op [op.addRegReg, b, q.id] = .reject (.invalidRegisterId b) rest) ∧
      (q = .r1 ∨ q = .r2 → ∃ rest, decode op [op.addRegReg, q.id, b] = .reject (.invalidRegisterId b) rest)

/-- A sanity check on words written out from the spec's encodings: the source's own examples W3, W5 and W8, the corrected W4,
and rows M1, RM1, MR1, RR5 and A8 of 95_test_vectors.md (default opcode bytes, log entry 2; in RR5 and A8 the first
failing check: decision D5). -/
def Obligations.SpecWordsDecode : Prop :=
  decode OpcodeMap.standard [0x10, 0x00, 0x01, 0x02] = .ok (.movLitReg 0x0001 .r1) [] ∧
  decode OpcodeMap.standard [0x10, 0x12, 0x34, 0x09] = .ok (.movLitReg 0x1234 .r8) [] ∧
  decode OpcodeMap.standard [0x11, 0x04, 0x05] = .ok (.movRegReg .r3 .r4) [] ∧
  decode OpcodeMap.standard [0x12, 0x02, 0x01, 0x00] = .ok (.movRegMem .r1 0x0100) [] ∧
  decode OpcodeMap.standard [0x13, 0x01, 0x00, 0x05] = .ok (.movMemReg 0x0100 .r4) [] ∧
  decode OpcodeMap.standard [0x14, 0x02, 0x03] = .ok (.addRegReg .r1 .r2) [] ∧
  decode OpcodeMap.standard [0x15, 0x12, 0x34, 0x00, 0x08] = .ok (.jmpNotEq 0x1234 0x0008) [] ∧
  decode OpcodeMap.standard [0xFF] = .reject (.invalidOpcode 0xFF) [] ∧
  decode OpcodeMap.standard [0x11, 0x0A, 0xFF] = .reject (.invalidRegisterId 0x0A) [0xFF] ∧
  decode OpcodeMap.standard [0x14, 0x00, 0xFF] = .reject (.unsupportedOperand 0x00) [0xFF]

/-! ### Memory -/

/-- R44, R45 (and W1 of 95): a word access fails exactly where `a + 1` is outside memory; inside it, a read gives
`mem[a] ++ mem[a+1]`, and a write stores the high byte at `a` and the low byte at `a+1`, changes no other byte and
nothing but memory, and is read back as written. -/
def Obligations.WordWriteThenRead : Prop :=
  ∀ (s : State) (a : Nat) (v : Word), s.mem.wf →
    (a + 1 < s.cfg.memSize →
      s.memRead16 a = some (wordOfBytes (s.byte a) (s.byte (a + 1))) ∧
      ∃ t, s.memWrite16 a v = some t ∧ t.memRead16 a = some v ∧
        t.byte a = wordHi v ∧ t.byte (a + 1) = wordLo v ∧
        (∀ k, k ≠ a → k ≠ a + 1 → t.byte k = s.byte k) ∧
        t.cfg = s.cfg ∧ t.regs = s.regs ∧ t.status = s.status ∧ t.started = s.started ∧
        t.writeEvents = s.writeEvents) ∧
    (s.cfg.memSize ≤ a + 1 → s.memWrite16 a v = none ∧ s.memRead16 a = none)

/-- 10_state.md R31: memory is the map from addresses to bytes and no more: two canonical memories that read alike
everywhere are the same data. -/
def Obligations.MemoryIsItsBytes : Prop :=
  ∀ m n : Memory, m.wf → n.wf → (∀ a, m.get a = n.get a) → m = n

/-- 20_memory.md R50 (derived there): with MEM_SIZE at most 0x10000 a word access at 0xFFFF is out of bounds for load, store
and fetch; with more, each of the three reaches bytes 0xFFFF and 0x10000 and never byte 0. The IP, STATUS and source
value it fixes are those of R102, R103, R81, R86, R88 and R143 (decisions D4 and D6 to D9). -/
def Obligations.WordAccessAtTopNeverWraps : Prop :=
  ∀ (s : State) (r : RegName),
    (s.cfg.memSize ≤ 0x10000 →
      exec (.movRegMem r 0xFFFF) s = .next (s.faultedAt (s.reg .ip + 4) .outOfBoundsAddress 0xFFFF) ∧
      exec (.movMemReg 0xFFFF r) s = .next (s.faultedAt (s.reg .ip + 4) .outOfBoundsAddress 0xFFFF) ∧
      (s.reg .ip = 0xFFFF → s.fetch16 = none ∧
        ∀ start, s.raiseReject .fetchFailed start = s.enterFault .outOfBoundsAddress 0xFFFF start)) ∧
    (0x10000 < s.cfg.memSize →
      (s.mem.wf → ∃ t v, exec (.movRegMem r 0xFFFF) s = .next t ∧
        v = (if r = .ip then s.reg .ip + 4 else s.reg r) ∧
        t.byte 0xFFFF = wordHi v ∧ t.byte 0x10000 = wordLo v ∧
        ∀ k, k ≠ 0xFFFF → k ≠ 0x10000 → t.byte k = s.byte k) ∧
      (∃ t, exec (.movMemReg 0xFFFF r) s = .next t ∧
        t.reg r = wordOfBytes (s.byte 0xFFFF) (s.byte 0x10000)) ∧
      (s.reg .ip = 0xFFFF →
        s.fetch16 = some (wordOfBytes (s.byte 0xFFFF) (s.byte 0x10000), s.setReg .ip 0x0001)))

/-- 20_memory.md R56 (derived there) with R30: the bytes a store has written are what instruction fetch reads there,
as a word and as bytes. The stored word is that of 41_data_movement.md R102 (bytes: R45), for a source of IP `start + 4`
(40_engine.md R86, decision D9). -/
def Obligations.FetchSeesTheStoredWord : Prop :=
  ∀ (s t : State) (src : RegName) (addr : Word), s.mem.wf → addr.toNat + 1 < s.cfg.memSize →
    exec (.movRegMem src addr) s = .next t →
    (∃ u, (t.setReg .ip addr).fetch16 = some ((s.advance 4).reg src, u)) ∧
    (∃ u, (t.setReg .ip addr).fetch8 = some (wordHi ((s.advance 4).reg src), u)) ∧
    (addr ≠ 0xFFFF → ∃ u, (t.setReg .ip (addr + 1)).fetch8 = some (wordLo ((s.advance 4).reg src), u))

/-! ### What each instruction does, and what it leaves alone

`s` is the state at the instruction's start, its bytes fetched without a fault (Obligations.StepRunsTheEncodedInstruction). -/

/-- 41_data_movement.md R100: MOV_LIT_REG completes from every state; `dest` holds the literal; IP, unless it is `dest`, is
4 bytes on; nothing else changes. -/
def Obligations.MovLitRegResult : Prop :=
  ∀ (s : State) (lit : Word) (dest : RegName),
    ∃ t, exec (.movLitReg lit dest) s = .next t ∧
      t.reg dest = lit ∧ (dest ≠ .ip → t.reg .ip = s.reg .ip + 4) ∧ s.keepsAllBut t [.ip, dest]

/-- 41_data_movement.md R101: MOV_REG_REG completes from every state; `dest` holds the value of `src`, which for IP is the
address just past the instruction (40_engine.md R86, decision D9); IP, unless it is `dest`, is 3 bytes on; nothing else
changes. -/
def Obligations.MovRegRegResult : Prop :=
  ∀ (s : State) (src dest : RegName),
    ∃ t, exec (.movRegReg src dest) s = .next t ∧
      t.reg dest = (if src = .ip then s.reg .ip + 3 else s.reg src) ∧
      (dest ≠ .ip → t.reg .ip = s.reg .ip + 3) ∧ s.keepsAllBut t [.ip, dest]

/-- 41_data_movement.md R102, 20_memory.md R48 (decisions D9, D12): MOV_REG_MEM with `addr` and `addr+1` inside memory
completes; the two bytes hold the value of `src`, high byte first, and no other byte changes; one WRITE_EVENT is emitted;
IP is 4 bytes on and no other register changes. -/
def Obligations.MovRegMemResult : Prop :=
  ∀ (s : State) (src : RegName) (addr : Word), s.mem.wf → addr.toNat + 1 < s.cfg.memSize →
    ∃ t v, exec (.movRegMem src addr) s = .next t ∧
      v = (if src = .ip then s.reg .ip + 4 else s.reg src) ∧
      t.byte addr.toNat = wordHi v ∧ t.byte (addr.toNat + 1) = wordLo v ∧
      (∀ k, k ≠ addr.toNat → k ≠ addr.toNat + 1 → t.byte k = s.byte k) ∧
      t.writeEvents = s.writeEvents ++ [⟨addr, v⟩] ∧
      t.reg .ip = s.reg .ip + 4 ∧ (∀ r, r ≠ .ip → t.reg r = s.reg r) ∧
      t.status = s.status ∧ t.started = s.started ∧ t.cfg = s.cfg

/-- 41_data_movement.md R103: MOV_MEM_REG with `addr` and `addr+1` inside memory completes; `dest` holds the big-endian word
there; IP, unless it is `dest`, is 4 bytes on; nothing else changes. -/
def Obligations.MovMemRegResult : Prop :=
  ∀ (s : State) (addr : Word) (dest : RegName), addr.toNat + 1 < s.cfg.memSize →
    ∃ t, exec (.movMemReg addr dest) s = .next t ∧
      t.reg dest = wordOfBytes (s.byte addr.toNat) (s.byte (addr.toNat + 1)) ∧
      (dest ≠ .ip → t.reg .ip = s.reg .ip + 4) ∧ s.keepsAllBut t [.ip, dest]

/-- 41_data_movement.md R102, R103 with R88 and R143 (decisions D6 to D8): a load or store whose word is not inside memory
raises `OutOfBoundsAddress(addr)`: IP is 4 bytes on, STATUS is latched, nothing else changes. -/
def Obligations.DataAccessOutsideMemoryFaults : Prop :=
  ∀ (s : State) (r : RegName) (addr : Word), s.cfg.memSize ≤ addr.toNat + 1 →
    ∀ i ∈ [Instr.movRegMem r addr, Instr.movMemReg addr r],
      ∃ t, exec i s = .next t ∧
        t.status = ⟨.faulted, some .outOfBoundsAddress, addr, s.reg .ip⟩ ∧
        t.reg .ip = s.reg .ip + 4 ∧ (∀ q, q ≠ .ip → t.reg q = s.reg q) ∧ t.mem = s.mem ∧
        t.started = s.started ∧ t.writeEvents = s.writeEvents ∧ t.cfg = s.cfg

/-- 42_arithmetic.md R120, R121 (wrap: decision D3): ADD_REG_REG of R1 and R2 in any order or twice the same completes; ACC
holds the sum modulo 2^16; IP is 3 bytes on; nothing else changes. -/
def Obligations.AddRegRegResult : Prop :=
  ∀ (s : State) (op1 op2 : RegName), (Instr.addRegReg op1 op2).wellFormed = true →
    ∃ t, exec (.addRegReg op1 op2) s = .next t ∧
      (t.reg .acc).toNat = ((s.reg op1).toNat + (s.reg op2).toNat) % 2 ^ 16 ∧
      t.reg .ip = s.reg .ip + 3 ∧ s.keepsAllBut t [.ip, .acc]

/-- 42_arithmetic.md R120 with R88 and R143 (decisions D5 to D8): any other operand raises `UnsupportedOperand` with its id,
the first operand's first, with IP just past the byte that names it; nothing but IP and STATUS changes. -/
def Obligations.AddRegRegUnsupportedOperand : Prop :=
  ∀ (s : State) (op1 op2 : RegName), (Instr.addRegReg op1 op2).wellFormed = false →
    ∃ t, exec (.addRegReg op1 op2) s = .next t ∧
      (if op1 = .r1 ∨ op1 = .r2 then
        t.reg .ip = s.reg .ip + 3 ∧ t.status = ⟨.faulted, some .unsupportedOperand, zext16 op2.id, s.reg .ip⟩
      else
        t.reg .ip = s.reg .ip + 2 ∧ t.status = ⟨.faulted, some .unsupportedOperand, zext16 op1.id, s.reg .ip⟩) ∧
      (∀ r, r ≠ .ip → t.reg r = s.reg r) ∧ t.mem = s.mem ∧
      t.started = s.started ∧ t.writeEvents = s.writeEvents ∧ t.cfg = s.cfg

/-- 43_control_transfer.md R130: JMP_NOT_EQ completes from every state; IP is the target when the literal differs from ACC
and 5 bytes on when it does not; nothing else changes, whatever the target (R132). -/
def Obligations.JmpNotEqResult : Prop :=
  ∀ (s : State) (lit target : Word),
    ∃ t, exec (.jmpNotEq lit target) s = .next t ∧
      t.reg .ip = (if lit = s.reg .acc then s.reg .ip + 5 else target) ∧ s.keepsAllBut t [.ip]

/-! ### The step -/

/-- 40_engine.md R82: where the core is RUNNING and the instruction at IP is fetched without a fault, the step is that
instruction's meaning in the same state with `started` set. -/
def Obligations.StepRunsTheFetchedInstruction : Prop :=
  ∀ (s rest : State) (i : Instr), s.status.state = .running → s.begin.fetchInstr = .ok i rest →
    step s = exec i s.begin

/-- 40_engine.md R82, R83 with 20_memory.md R51: where the bytes that the fetches from IP read are the encoding of `i`,
wherever IP lies and also where it wraps, the step is the meaning of `i` in the same state with `started` set. -/
def Obligations.StepRunsTheEncodedInstruction : Prop :=
  ∀ (s : State) (i : Instr), s.status.state = .running → s.cfg.opcodes.legal → s.holdsAtIp i →
    step s = exec i s.begin

/-- The step, which decodes and then executes, computes what the spec's pseudocode of Step, Dispatch and the six handlers
computes line by line, fetching, checking and writing in its order (40_engine.md R80 to R84; R100 to R103, R120, R130; with
the decisions D3 to D9 and D12 those rules name). -/
def Obligations.StepIsTheSpecPseudocode : Prop :=
  ∀ s : State, step s = .next (microStep s)

/-- 40_engine.md R80, R82 (decisions D6 to D8): a RUNNING core with IP outside memory raises `OutOfBoundsAddress(IP)` and
leaves IP where it is. -/
def Obligations.OpcodeFetchOutsideMemoryFaults : Prop :=
  ∀ s : State, s.status.state = .running → s.cfg.memSize ≤ (s.reg .ip).toNat →
    step s = .next (s.begin.faultedAt (s.reg .ip) .outOfBoundsAddress (s.reg .ip))

/-- 40_engine.md R83, 30_encoding.md R65 (STATUS: decisions D7, D8): an opcode byte that is none of the six raises
`InvalidOpcode` with IP just past it. -/
def Obligations.InvalidOpcodeFaults : Prop :=
  ∀ s : State, s.status.state = .running → (s.reg .ip).toNat < s.cfg.memSize →
    s.byte (s.reg .ip).toNat ∉ s.cfg.opcodes.codes →
    step s = .next (s.begin.faultedAt (s.reg .ip + 1) .invalidOpcode (zext16 (s.byte (s.reg .ip).toNat)))

/-- R100, whole: a step at an opcode byte of MOV_LIT_REG, with each of its exceptions in order, the IP each leaves, and the
effect. (How a raised fault is kept, by
`faultedAt` in STATUS, is no part of the rule: it is 60_exceptions.md, Fault entry, decisions D7 and D8.) -/
def Obligations.MovLitRegStep : Prop :=
  ∀ s : State, s.status.state = .running → s.cfg.opcodes.legal → (s.reg .ip).toNat < s.cfg.memSize →
    s.byte (s.reg .ip).toNat = s.cfg.opcodes.movLitReg →
    let start := s.reg .ip
    let u := s.begin
    step s = .next (
      if s.cfg.memSize ≤ (start + 1).toNat + 1 then u.faultedAt (start + 1) .outOfBoundsAddress (start + 1)
      else if s.cfg.memSize ≤ (start + 3).toNat then u.faultedAt (start + 3) .outOfBoundsAddress (start + 3)
      else match RegName.ofId (s.byte (start + 3).toNat) with
        | none => u.faultedAt (start + 4) .invalidRegisterId (zext16 (s.byte (start + 3).toNat))
        | some d =>
          (u.setReg .ip (start + 4)).setReg d
            (wordOfBytes (s.byte (start + 1).toNat) (s.byte ((start + 1).toNat + 1))))

/-- R101 (order and source read: decisions D5, D9; what a fault leaves: D6 to D8): a step at an opcode byte of MOV_REG_REG. -/
def Obligations.MovRegRegStep : Prop :=
  ∀ s : State, s.status.state = .running → s.cfg.opcodes.legal → (s.reg .ip).toNat < s.cfg.memSize →
    s.byte (s.reg .ip).toNat = s.cfg.opcodes.movRegReg →
    let start := s.reg .ip
    let u := s.begin
    step s = .next (
      if s.cfg.memSize ≤ (start + 1).toNat then u.faultedAt (start + 1) .outOfBoundsAddress (start + 1)
      else match RegName.ofId (s.byte (start + 1).toNat) with
        | none => u.faultedAt (start + 2) .invalidRegisterId (zext16 (s.byte (start + 1).toNat))
        | some src =>
          if s.cfg.memSize ≤ (start + 2).toNat then u.faultedAt (start + 2) .outOfBoundsAddress (start + 2)
          else match RegName.ofId (s.byte (start + 2).toNat) with
            | none => u.faultedAt (start + 3) .invalidRegisterId (zext16 (s.byte (start + 2).toNat))
            | some d => (u.setReg .ip (start + 3)).setReg d ((u.setReg .ip (start + 3)).reg src))

/-- R102 (decisions D5 to D9, D12): a step at an opcode byte of MOV_REG_MEM. -/
def Obligations.MovRegMemStep : Prop :=
  ∀ s : State, s.status.state = .running → s.cfg.opcodes.legal → (s.reg .ip).toNat < s.cfg.memSize →
    s.byte (s.reg .ip).toNat = s.cfg.opcodes.movRegMem →
    let start := s.reg .ip
    let u := s.begin
    step s = .next (
      if s.cfg.memSize ≤ (start + 1).toNat then u.faultedAt (start + 1) .outOfBoundsAddress (start + 1)
      else match RegName.ofId (s.byte (start + 1).toNat) with
        | none => u.faultedAt (start + 2) .invalidRegisterId (zext16 (s.byte (start + 1).toNat))
        | some src =>
          if s.cfg.memSize ≤ (start + 2).toNat + 1 then u.faultedAt (start + 2) .outOfBoundsAddress (start + 2)
          else
            let a := wordOfBytes (s.byte (start + 2).toNat) (s.byte ((start + 2).toNat + 1))
            let v := (u.setReg .ip (start + 4)).reg src
            if s.cfg.memSize ≤ a.toNat + 1 then u.faultedAt (start + 4) .outOfBoundsAddress a
            else { u.setReg .ip (start + 4) with
              mem := (s.mem.set a.toNat (wordHi v)).set (a.toNat + 1) (wordLo v)
              writeEvents := s.writeEvents ++ [⟨a, v⟩] })

/-- R103 (decisions D5 to D8): a step at an opcode byte of MOV_MEM_REG. -/
def Obligations.MovMemRegStep : Prop :=
  ∀ s : State, s.status.state = .running → s.cfg.opcodes.legal → (s.reg .ip).toNat < s.cfg.memSize →
    s.byte (s.reg .ip).toNat = s.cfg.opcodes.movMemReg →
    let start := s.reg .ip
    let u := s.begin
    step s = .next (
      if s.cfg.memSize ≤ (start + 1).toNat + 1 then u.faultedAt (start + 1) .outOfBoundsAddress (start + 1)
      else if s.cfg.memSize ≤ (start + 3).toNat then u.faultedAt (start + 3) .outOfBoundsAddress (start + 3)
      else match RegName.ofId (s.byte (start + 3).toNat) with
        | none => u.faultedAt (start + 4) .invalidRegisterId (zext16 (s.byte (start + 3).toNat))
        | some d =>
          let a := wordOfBytes (s.byte (start + 1).toNat) (s.byte ((start + 1).toNat + 1))
          if s.cfg.memSize ≤ a.toNat + 1 then u.faultedAt (start + 4) .outOfBoundsAddress a
          else (u.setReg .ip (start + 4)).setReg d (wordOfBytes (s.byte a.toNat) (s.byte (a.toNat + 1))))

/-- R120 (decisions D3, D5 to D9): a step at an opcode byte of ADD_REG_REG, all six exceptions in order. -/
def Obligations.AddRegRegStep : Prop :=
  ∀ s : State, s.status.state = .running → s.cfg.opcodes.legal → (s.reg .ip).toNat < s.cfg.memSize →
    s.byte (s.reg .ip).toNat = s.cfg.opcodes.addRegReg →
    let start := s.reg .ip
    let u := s.begin
    let b1 := s.byte (start + 1).toNat
    let b2 := s.byte (start + 2).toNat
    step s = .next (
      if s.cfg.memSize ≤ (start + 1).toNat then u.faultedAt (start + 1) .outOfBoundsAddress (start + 1)
      else if 0x09 < b1.toNat then u.faultedAt (start + 2) .invalidRegisterId (zext16 b1)
      else if b1 ≠ 0x02 ∧ b1 ≠ 0x03 then u.faultedAt (start + 2) .unsupportedOperand (zext16 b1)
      else if s.cfg.memSize ≤ (start + 2).toNat then u.faultedAt (start + 2) .outOfBoundsAddress (start + 2)
      else if 0x09 < b2.toNat then u.faultedAt (start + 3) .invalidRegisterId (zext16 b2)
      else if b2 ≠ 0x02 ∧ b2 ≠ 0x03 then u.faultedAt (start + 3) .unsupportedOperand (zext16 b2)
      else (u.setReg .ip (start + 3)).setReg .acc
        ((if b1 = 0x02 then s.reg .r1 else s.reg .r2) + (if b2 = 0x02 then s.reg .r1 else s.reg .r2)))

/-- R130, whole: a step at an opcode byte of JMP_NOT_EQ, with both of its exceptions, the IP each leaves, and the
effect. (How a raised fault is kept, by
`faultedAt` in STATUS, is no part of the rule: it is 60_exceptions.md, Fault entry, decisions D7 and D8.) -/
def Obligations.JmpNotEqStep : Prop :=
  ∀ s : State, s.status.state = .running → s.cfg.opcodes.legal → (s.reg .ip).toNat < s.cfg.memSize →
    s.byte (s.reg .ip).toNat = s.cfg.opcodes.jmpNotEq →
    let start := s.reg .ip
    let u := s.begin
    step s = .next (
      if s.cfg.memSize ≤ (start + 1).toNat + 1 then u.faultedAt (start + 1) .outOfBoundsAddress (start + 1)
      else if s.cfg.memSize ≤ (start + 3).toNat + 1 then u.faultedAt (start + 3) .outOfBoundsAddress (start + 3)
      else if wordOfBytes (s.byte (start + 1).toNat) (s.byte ((start + 1).toNat + 1)) ≠ s.reg .acc then
        u.setReg .ip (wordOfBytes (s.byte (start + 3).toNat) (s.byte ((start + 3).toNat + 1)))
      else u.setReg .ip (start + 5))

/-- 40_engine.md R92, R95 (R95 is marked derived there): from a RUNNING state a step is either one of the six instructions,
completed with STATUS unchanged, or exactly one latched fault, `fault_pc` the instruction's address (60_exceptions.md
R142, R143, decisions D7, D8); in the fault state it changes nothing (R82, R143, decision D7). That every step answers a
next state is log entry 5. -/
def Obligations.StepCompletesOrFaults : Prop :=
  ∀ s : State, ∃ t, step s = .next t ∧
    (s.status.state = .faulted → t = s) ∧
    (s.status.state = .running →
      (t.status = s.status ∧ ∃ i rest, s.begin.fetchInstr = .ok i rest ∧ exec i s.begin = .next t) ∨
      (∃ k info, t.status = ⟨.faulted, some k, info, s.reg .ip⟩))

/-- 43_control_transfer.md R132 (derived there): a taken jump to an address outside memory completes; the next step raises
`OutOfBoundsAddress(target)` with IP at the target (40_engine.md R80, R88, 60_exceptions.md R143, decisions D6 to D8). -/
def Obligations.JumpOutsideMemoryFaultsOnTheNextStep : Prop :=
  ∀ (s : State) (lit target : Word), s.status.state = .running → s.cfg.opcodes.legal →
    s.holdsAtIp (.jmpNotEq lit target) → lit ≠ s.reg .acc → s.cfg.memSize ≤ target.toNat →
    step s = .next (s.begin.setReg .ip target) ∧
    core.run 2 s = .next ((s.begin.setReg .ip target).faultedAt target .outOfBoundsAddress target)

/-- R130, corner case `target = start`: the jump repeats for any number of steps and changes nothing but `started` (10_state.md
R32, decision D11); the core itself never ends it (40_engine.md R92). -/
def Obligations.JumpToItselfRunsForever : Prop :=
  ∀ (s : State) (lit : Word), s.status.state = .running → s.cfg.opcodes.legal →
    s.holdsAtIp (.jmpNotEq lit (s.reg .ip)) → lit ≠ s.reg .acc →
    ∀ n, core.run (n + 1) s = .next s.begin

/-! ### Faults -/

/-- 40_engine.md R88, 60_exceptions.md R143 (decisions D5 to D7): a step that faults leaves every register but IP, every byte,
the outputs and the parameters as they were; `fault_pc` is the instruction's address. IP is past the completed fetches, at
most 5 bytes on: where the fetch or a check of its bytes is rejected, where that left it; where ADD_REG_REG cannot take
its first operand, past that operand's byte; else, at the data access or ADD_REG_REG's second operand, past the whole
instruction. -/
def Obligations.FaultLeavesOnlyIpAndStatus : Prop :=
  ∀ s t : State, s.status.state = .running → step s = .next t → t.status.state = .faulted →
    (∀ r, r ≠ .ip → t.reg r = s.reg r) ∧ t.mem = s.mem ∧ t.writeEvents = s.writeEvents ∧ t.cfg = s.cfg ∧
    t.started = true ∧ t.status.faultPc = s.reg .ip ∧
    (∀ r u, s.begin.fetchInstr = .reject r u → t.reg .ip = u.reg .ip) ∧
    (∀ i rest, s.begin.fetchInstr = .ok i rest →
      t.reg .ip =
        match i with
        | .addRegReg op1 _ => if op1 = .r1 ∨ op1 = .r2 then rest.reg .ip else s.reg .ip + 2
        | .movLitReg _ _ | .movRegReg _ _ | .movRegMem _ _ | .movMemReg _ _ | .jmpNotEq _ _ => rest.reg .ip) ∧
    (∀ i rest, s.begin.fetchInstr = .ok i rest → rest.reg .ip = s.reg .ip + BitVec.ofNat 16 i.length) ∧
    ∃ n ≤ 5, t.reg .ip = s.reg .ip + BitVec.ofNat 16 n

/-- 60_exceptions.md R140, the column "raised by": which kinds of fault a step at each opcode can latch (40_engine.md R80, R82,
R83; how STATUS holds the kind: R143, decisions D7, D8). -/
def Obligations.FaultKindsByInstruction : Prop :=
  ∀ (s t : State) (k : Fault), s.status.state = .running → s.cfg.opcodes.legal → step s = .next t →
    t.status.kind = some k → t.status.state = .faulted →
    if s.cfg.memSize ≤ (s.reg .ip).toNat then k = .outOfBoundsAddress
    else
      let b := s.byte (s.reg .ip).toNat
      (b ∉ s.cfg.opcodes.codes ↔ k = .invalidOpcode) ∧
      (b = s.cfg.opcodes.jmpNotEq → k = .outOfBoundsAddress) ∧
      (k = .unsupportedOperand → b = s.cfg.opcodes.addRegReg)

/-- 60_exceptions.md R143, R145 (decision D7): in the fault state any number of steps changes nothing, no transaction but
RESET changes STATUS, and RESET gives the whole reset state (70_reset_and_hazards.md R160, 10_state.md R34: decision D15);
that this state lists no outputs is the model's choice (log entry 3), and the parameters stay (R35). -/
def Obligations.FaultStateIsLeftOnlyByReset : Prop :=
  ∀ s : State, s.status.state = .faulted →
    (∀ n, core.run n s = .next s) ∧
    (∀ (tr : Transaction) (r : Reply) (t : State), tr ≠ .reset → transact s tr = .next (r, t) → t.status = s.status) ∧
    transact s .reset = .next (.done, State.resetOf s.cfg)

/-- 10_state.md R27, 60_exceptions.md R141 (decisions D7, D8, D20): `STATUS.kind` is 0 exactly when the core is RUNNING, and
the codes 5 to 7 never occur. -/
def Obligations.StatusKindIsZeroExactlyWhenRunning : Prop :=
  ∀ s : State, s.Inv → (s.status.code = 0 ↔ s.status.state = .running) ∧ s.status.code.toNat ≤ 4

/-! ### Invariants and rules of the whole machine -/

/-- The invariant holds after reset (decision D15), with the default parameters and with any legal ones. That no outputs are
listed then is the model's choice (log entry 3). -/
def Obligations.InvHoldsAtReset : Prop :=
  State.reset.Inv ∧ ∀ c : Config, c.opcodes.legal → (State.resetOf c).Inv

/-- Every step keeps the invariant: memory canonical and inside the array, a STATUS the core can hold with an info its kind
can have, outputs only of stores inside memory (10_state.md R27, R31, R32, 20_memory.md R48, 60_exceptions.md R142, R143;
decisions D6 to D8, D11, D12, D20). -/
def Obligations.StepKeepsInv : Prop :=
  ∀ s t : State, s.Inv → step s = .next t → t.Inv

/-- Every transaction of the host keeps the invariant, changes no parameter and is answered. RESET keeps the invariant's clause
that no outputs are listed before the first step only because the model's RESET empties them (log entry 3). -/
def Obligations.TransactionsKeepInv : Prop :=
  ∀ (s : State) (tr : Transaction), s.Inv →
    ∃ r t, transact s tr = .next (r, t) ∧ t.Inv ∧ t.cfg = s.cfg

/-- 20_memory.md R46: a byte of memory changes only by LOAD_MEM in the boot phase or by the word write of MOV_REG_MEM (and by
RESET, 70_reset_and_hazards.md R160). -/
def Obligations.MemoryChangesOnlyByStoreOrLoad : Prop :=
  ∀ (s t : State) (tr : Transaction) (r : Reply) (a : Nat), s.mem.wf → transact s tr = .next (r, t) →
    t.byte a ≠ s.byte a →
    tr = .reset ∨
    (∃ v, tr = .loadMem a v ∧ s.started = false ∧ t.byte a = v) ∨
    (tr = .step ∧ s.status.state = .running ∧ ∃ src addr rest,
      s.begin.fetchInstr = .ok (.movRegMem src addr) rest ∧ addr.toNat + 1 < s.cfg.memSize ∧
      (a = addr.toNat ∨ a = addr.toNat + 1))

/-- 10_state.md R22: a step changes a register other than IP only as the explicit destination of one of the three moves to a
register, or as ACC by ADD_REG_REG; a step that faults changes none, nor does one in the fault state (40_engine.md R88,
60_exceptions.md R143, decisions D6, D7). -/
def Obligations.RegistersChangeOnlyAsDestinations : Prop :=
  ∀ (s t : State) (r : RegName), step s = .next t → r ≠ .ip → t.reg r ≠ s.reg r →
    ∃ i rest, s.begin.fetchInstr = .ok i rest ∧
      match i with
      | .movLitReg _ dest => dest = r
      | .movRegReg _ dest => dest = r
      | .movMemReg _ dest => dest = r
      | .addRegReg _ _ => r = .acc
      | .movRegMem _ _ => False
      | .jmpNotEq _ _ => False

/-- 20_memory.md R48 (decision D12): a step emits one WRITE_EVENT exactly when it completes a MOV_REG_MEM, with the address and
the word that memory then holds there; no other step emits any. The word is the value of the source (41_data_movement.md R102), for a
source of IP `start + 4` (40_engine.md R86, decision D9). -/
def Obligations.OneWriteEventPerCompletedStore : Prop :=
  ∀ s t : State, s.mem.wf → s.status.state = .running → step s = .next t →
    (∀ src addr rest, s.begin.fetchInstr = .ok (.movRegMem src addr) rest → addr.toNat + 1 < s.cfg.memSize →
      ∃ v, t.writeEvents = s.writeEvents ++ [⟨addr, v⟩] ∧ t.memRead16 addr.toNat = some v ∧
        v = (s.advance 4).reg src) ∧
    ((∀ src addr rest, s.begin.fetchInstr = .ok (.movRegMem src addr) rest → s.cfg.memSize ≤ addr.toNat + 1) →
      t.writeEvents = s.writeEvents)

/-- 20_memory.md R48: "The core never reads anything from the observer": the outputs already made decide nothing about a step
but what its own outputs are added to. -/
def Obligations.OutputsAreNeverRead : Prop :=
  ∀ (s : State) (es : List WriteEvent), ∃ t new,
    step s = .next t ∧ t.writeEvents = s.writeEvents ++ new ∧
    step { s with writeEvents := es } = .next { t with writeEvents := es ++ new }

/-- 10_state.md R27, R32 (decisions D11, D20): no instruction reads STATUS or `started`: between RUNNING states that differ
only there, the step differs only in the STATUS it leaves alone; one that faults latches the same (60_exceptions.md R143, decisions D7,
D8). -/
def Obligations.StatusAndStartedAreNeverRead : Prop :=
  ∀ (s : State) (st : Status) (b : Bool), s.status.state = .running → st.state = .running →
    ∃ t, step s = .next t ∧
      step { s with status := st, started := b } =
        .next { t with status := if t.status.state = .running then st else t.status }

/-! ### Reset, the boot phase and the host's transactions -/

/-- 10_state.md R24: a register that nothing has written since reset reads as 0, also where the host has preset another
with LOAD_REG (R34, 70_reset_and_hazards.md R164, decisions D11, D15). -/
def Obligations.UnwrittenRegistersReadZero : Prop :=
  ∀ (c : Config) (q : RegName), (State.resetOf c).reg q = 0 ∧
    ∀ (r : RegName) (v : Word), q ≠ r →
      ∃ t, transact (State.resetOf c) (.loadReg r v) = .next (.done, t) ∧ t.reg q = 0 ∧ t.reg r = v

/-- 70_reset_and_hazards.md R160, 10_state.md R34 (decision D15): RESET, from every state, sets every piece of state to its
reset value; the outputs start anew (log entry 3) and the parameters stay (R35). -/
def Obligations.ResetClearsEverything : Prop :=
  ∀ s : State, ∃ t, transact s .reset = .next (.done, t) ∧
    (∀ r, t.reg r = 0) ∧ (∀ a, t.byte a = 0) ∧
    t.status.state = .running ∧ t.status.code = 0 ∧ t.status.info = 0 ∧ t.status.faultPc = 0 ∧
    t.started = false ∧ t.writeEvents = [] ∧ t.cfg = s.cfg

/-- 70_reset_and_hazards.md R162 to R164 (decisions D11, D21): in the boot phase LOAD_REG writes the register, LOAD_MEM the
byte, and a LOAD_MEM outside memory is told so and changes nothing; after it both are refused and change nothing. LOAD_MEM's address is any natural number (log entry 8). -/
def Obligations.LoadsWorkInTheBootPhaseOnly : Prop :=
  ∀ (s : State) (a : Nat) (v : Byte) (r : RegName) (w : Word), s.mem.wf →
    (s.started = true →
      transact s (.loadMem a v) = .next (.refused, s) ∧ transact s (.loadReg r w) = .next (.refused, s)) ∧
    (s.started = false →
      (∃ t, transact s (.loadReg r w) = .next (.done, t) ∧ t.reg r = w ∧ s.keepsAllBut t [r]) ∧
      (s.cfg.memSize ≤ a → transact s (.loadMem a v) = .next (.loadOutOfBounds a, s)) ∧
      (a < s.cfg.memSize →
        ∃ t, transact s (.loadMem a v) = .next (.done, t) ∧ t.byte a = v ∧ (∀ k, k ≠ a → t.byte k = s.byte k) ∧
          t.regs = s.regs ∧ t.status = s.status ∧ t.started = s.started ∧ t.writeEvents = s.writeEvents ∧
          t.cfg = s.cfg))

/-- 10_state.md R32 (decision D11): an accepted step sets `started`, and only RESET clears it. -/
def Obligations.StartedStaysUntilReset : Prop :=
  ∀ (s t : State) (tr : Transaction) (r : Reply), transact s tr = .next (r, t) →
    (tr = .step → s.status.state = .running → t.started = true) ∧
    (tr ≠ .step → tr ≠ .reset → t.started = s.started) ∧
    (s.started = true → tr ≠ .reset → t.started = true)

/-- 40_engine.md R82, 60_exceptions.md R143 (decisions D7, D8): the reply of STEP is OK exactly when the core is RUNNING
after it, and else the latched kind and info; that the step answers a next state is log entry 5. -/
def Obligations.StepReplyIsTheStatus : Prop :=
  ∀ s : State, s.Inv → ∃ r t, transact s .step = .next (r, t) ∧ step s = .next t ∧
    (t.status.state = .running → r = .ok) ∧
    (t.status.state = .faulted → ∃ k, t.status.kind = some k ∧ r = .fault k t.status.info)

/-- 00_scope.md R8, 70_reset_and_hazards.md R167 (decision D10): SNAPSHOT shows the registers, STATUS and memory, and changes
nothing. -/
def Obligations.SnapshotIsReadOnly : Prop :=
  ∀ s : State, ∃ v, transact s .snapshot = .next (.snapshot v, s) ∧
    (∀ r, v.regs.get r = s.reg r) ∧ v.status = s.status ∧ ∀ a, v.mem.get a = s.byte a
end

