-- ==== Sys2Proof/Laws/Decode.lean ====
section
/-! SUPPORT. The small laws of the encoding: byte order, register ids and opcode bytes, each read back from what it writes. -/

namespace Sys2Proof

@[simp] theorem wordOfBytes_hi_lo (w : Word) : wordOfBytes (wordHi w) (wordLo w) = w := by
  ext i h
  by_cases hi : i < 8
  · simp [wordOfBytes, wordHi, wordLo, hi, BitVec.getLsbD_eq_getElem h]
  · have h8 : 8 + (i - 8) = i := by omega
    simp [wordOfBytes, wordHi, wordLo, hi, h8, BitVec.getLsbD_eq_getElem h]
    omega

@[simp] theorem wordHi_wordOfBytes (hi lo : Byte) : wordHi (wordOfBytes hi lo) = hi := by
  ext i h
  have h16 : 8 + i < 16 := by omega
  simp [wordHi, wordOfBytes, BitVec.getLsbD_eq_getElem h, h16]

@[simp] theorem wordLo_wordOfBytes (hi lo : Byte) : wordLo (wordOfBytes hi lo) = lo := by
  ext i h
  have h16 : i < 16 := by omega
  simp [wordLo, wordOfBytes, h, h16]

@[simp] theorem RegName.ofId_id (r : RegName) : RegName.ofId r.id = some r := by
  cases r <;> rfl

/-- A register id names its register and no other (30_encoding.md R62). -/
theorem RegName.ofId_eq_some {b : Byte} {r : RegName} : RegName.ofId b = some r ↔ b = r.id := by
  refine ⟨fun h => ?_, fun h => by simp [h]⟩
  unfold RegName.ofId at h
  split at h <;> first
    | (cases h; next hb => exact BitVec.eq_of_toNat_eq hb)
    | cases h

/-- The bytes that name no register are 0x0A to 0xFF (30_encoding.md R62, 40_engine.md R84). -/
theorem RegName.ofId_eq_none {b : Byte} : RegName.ofId b = none ↔ 0x0A ≤ b.toNat := by
  unfold RegName.ofId
  split <;> simp_all
  omega

/-- The byte a lookup accepts is the opcode of what it gives, under any binding. -/
theorem OpcodeMap.code_of_lookup {op : OpcodeMap} {b : Byte} {m : Mnemonic} (h : op.lookup b = some m) :
    b = op.code m := by
  unfold OpcodeMap.lookup at h
  repeat' split at h
  all_goals first
    | (cases h; assumption)
    | cases h

/-- Under a legal binding each opcode byte selects its own mnemonic (30_encoding.md R64). -/
theorem OpcodeMap.lookup_code {op : OpcodeMap} (h : op.legal) (m : Mnemonic) : op.lookup (op.code m) = some m := by
  obtain ⟨h, -⟩ := h
  simp only [OpcodeMap.codes, List.nodup_cons, List.mem_cons, List.not_mem_nil, not_or] at h
  cases m <;> simp only [OpcodeMap.code, OpcodeMap.lookup] <;> split_ifs <;> simp_all

/-- A byte selects nothing exactly when it is none of the six opcodes (30_encoding.md R65). -/
theorem OpcodeMap.lookup_eq_none {op : OpcodeMap} {b : Byte} : op.lookup b = none ↔ b ∉ op.codes := by
  simp only [OpcodeMap.codes, OpcodeMap.lookup, List.mem_cons, List.not_mem_nil, or_false, not_or]
  split_ifs <;> simp_all

theorem OpcodeMap.standard_legal : OpcodeMap.standard.legal := by decide

end Sys2Proof
end

