-- ==== Sys2Proof/Laws/State.lean ====
section
/-! SUPPORT. What each state update does to each field, and what reading a register or a byte after it gives; every lemma
is true by unfolding once, so that no later proof unfolds a record update. -/

namespace Sys2Proof.Machine

/-! ### The register file -/

@[simp] theorem Regs.get_set_same (x : Regs) (r : RegName) (v : Word) : (x.set r v).get r = v := by
  cases r <;> rfl

theorem Regs.get_set_ne (x : Regs) {r q : RegName} (v : Word) (h : q ≠ r) : (x.set r v).get q = x.get q := by
  cases r <;> cases q <;> first | rfl | exact absurd rfl h

theorem Regs.get_set (x : Regs) (r q : RegName) (v : Word) :
    (x.set r v).get q = if q = r then v else x.get q := by
  split
  · next h => subst h; simp
  · next h => exact x.get_set_ne v h

@[simp] theorem Regs.set_set (x : Regs) (r : RegName) (v w : Word) : (x.set r v).set r w = x.set r w := by
  cases r <;> rfl

@[simp] theorem Regs.set_get (x : Regs) (r : RegName) : x.set r (x.get r) = x := by
  cases r <;> rfl

/-- Two register files that agree on every name are equal. -/
theorem Regs.ext_get {x y : Regs} (h : ∀ r, x.get r = y.get r) : x = y := by
  cases x
  cases y
  have h0 := h .ip
  have h1 := h .acc
  have h2 := h .r1
  have h3 := h .r2
  have h4 := h .r3
  have h5 := h .r4
  have h6 := h .r5
  have h7 := h .r6
  have h8 := h .r7
  have h9 := h .r8
  simp only [Regs.get] at h0 h1 h2 h3 h4 h5 h6 h7 h8 h9
  subst h0 h1 h2 h3 h4 h5 h6 h7 h8 h9
  rfl

/-! ### `setReg` -/

@[simp] theorem State.setReg_cfg (s : State) (r : RegName) (v : Word) : (s.setReg r v).cfg = s.cfg := rfl
@[simp] theorem State.setReg_regs (s : State) (r : RegName) (v : Word) : (s.setReg r v).regs = s.regs.set r v := rfl
@[simp] theorem State.setReg_mem (s : State) (r : RegName) (v : Word) : (s.setReg r v).mem = s.mem := rfl
@[simp] theorem State.setReg_status (s : State) (r : RegName) (v : Word) : (s.setReg r v).status = s.status := rfl
@[simp] theorem State.setReg_started (s : State) (r : RegName) (v : Word) : (s.setReg r v).started = s.started := rfl
@[simp] theorem State.setReg_writeEvents (s : State) (r : RegName) (v : Word) :
    (s.setReg r v).writeEvents = s.writeEvents := rfl
@[simp] theorem State.setReg_byte (s : State) (r : RegName) (v : Word) (a : Nat) : (s.setReg r v).byte a = s.byte a := rfl

@[simp] theorem State.reg_setReg_same (s : State) (r : RegName) (v : Word) : (s.setReg r v).reg r = v :=
  s.regs.get_set_same r v

theorem State.reg_setReg (s : State) (r q : RegName) (v : Word) :
    (s.setReg r v).reg q = if q = r then v else s.reg q := s.regs.get_set r q v

@[simp] theorem State.reg_setReg_ne (s : State) {r q : RegName} (v : Word) (h : q ≠ r) :
    (s.setReg r v).reg q = s.reg q := s.regs.get_set_ne v h

@[simp] theorem State.setReg_setReg (s : State) (r : RegName) (v w : Word) : (s.setReg r v).setReg r w = s.setReg r w := by
  simp [State.setReg]

@[simp] theorem State.setReg_self (s : State) (r : RegName) : s.setReg r (s.reg r) = s := by
  simp [State.setReg, State.reg]

/-! ### `advance` -/

@[simp] theorem State.advance_cfg (s : State) (n : Nat) : (s.advance n).cfg = s.cfg := rfl
@[simp] theorem State.advance_mem (s : State) (n : Nat) : (s.advance n).mem = s.mem := rfl
@[simp] theorem State.advance_status (s : State) (n : Nat) : (s.advance n).status = s.status := rfl
@[simp] theorem State.advance_started (s : State) (n : Nat) : (s.advance n).started = s.started := rfl
@[simp] theorem State.advance_writeEvents (s : State) (n : Nat) : (s.advance n).writeEvents = s.writeEvents := rfl
@[simp] theorem State.advance_byte (s : State) (n a : Nat) : (s.advance n).byte a = s.byte a := rfl

@[simp] theorem State.advance_ip (s : State) (n : Nat) : (s.advance n).reg .ip = s.reg .ip + BitVec.ofNat 16 n :=
  s.reg_setReg_same _ _

@[simp] theorem State.advance_reg_ne (s : State) (n : Nat) {q : RegName} (h : q ≠ .ip) :
    (s.advance n).reg q = s.reg q := s.reg_setReg_ne _ h

/-- Two advances are one, modulo 2^16. -/
@[simp] theorem State.advance_advance (s : State) (m n : Nat) : (s.advance m).advance n = s.advance (m + n) := by
  simp [State.advance, BitVec.ofNat_add, BitVec.add_assoc]

@[simp] theorem State.setReg_ip_advance (s : State) (n : Nat) (v : Word) :
    (s.advance n).setReg .ip v = s.setReg .ip v := s.setReg_setReg _ _ _

/-! ### `emit` -/

@[simp] theorem State.emit_cfg (s : State) (a v : Word) : (s.emit a v).cfg = s.cfg := rfl
@[simp] theorem State.emit_regs (s : State) (a v : Word) : (s.emit a v).regs = s.regs := rfl
@[simp] theorem State.emit_mem (s : State) (a v : Word) : (s.emit a v).mem = s.mem := rfl
@[simp] theorem State.emit_status (s : State) (a v : Word) : (s.emit a v).status = s.status := rfl
@[simp] theorem State.emit_started (s : State) (a v : Word) : (s.emit a v).started = s.started := rfl
@[simp] theorem State.emit_writeEvents (s : State) (a v : Word) :
    (s.emit a v).writeEvents = s.writeEvents ++ [⟨a, v⟩] := rfl
@[simp] theorem State.emit_reg (s : State) (a v : Word) (r : RegName) : (s.emit a v).reg r = s.reg r := rfl
@[simp] theorem State.emit_byte (s : State) (a v : Word) (k : Nat) : (s.emit a v).byte k = s.byte k := rfl

/-! ### `begin` -/

@[simp] theorem State.begin_cfg (s : State) : s.begin.cfg = s.cfg := rfl
@[simp] theorem State.begin_regs (s : State) : s.begin.regs = s.regs := rfl
@[simp] theorem State.begin_mem (s : State) : s.begin.mem = s.mem := rfl
@[simp] theorem State.begin_status (s : State) : s.begin.status = s.status := rfl
@[simp] theorem State.begin_started (s : State) : s.begin.started = true := rfl
@[simp] theorem State.begin_writeEvents (s : State) : s.begin.writeEvents = s.writeEvents := rfl
@[simp] theorem State.begin_reg (s : State) (r : RegName) : s.begin.reg r = s.reg r := rfl
@[simp] theorem State.begin_byte (s : State) (a : Nat) : s.begin.byte a = s.byte a := rfl

/-! ### `enterFault` -/

@[simp] theorem State.enterFault_cfg (s : State) (k : Fault) (i p : Word) : (s.enterFault k i p).cfg = s.cfg := rfl
@[simp] theorem State.enterFault_regs (s : State) (k : Fault) (i p : Word) : (s.enterFault k i p).regs = s.regs := rfl
@[simp] theorem State.enterFault_mem (s : State) (k : Fault) (i p : Word) : (s.enterFault k i p).mem = s.mem := rfl
@[simp] theorem State.enterFault_status (s : State) (k : Fault) (i p : Word) :
    (s.enterFault k i p).status = ⟨.faulted, some k, i, p⟩ := rfl
@[simp] theorem State.enterFault_started (s : State) (k : Fault) (i p : Word) :
    (s.enterFault k i p).started = s.started := rfl
@[simp] theorem State.enterFault_writeEvents (s : State) (k : Fault) (i p : Word) :
    (s.enterFault k i p).writeEvents = s.writeEvents := rfl
@[simp] theorem State.enterFault_reg (s : State) (k : Fault) (i p : Word) (r : RegName) :
    (s.enterFault k i p).reg r = s.reg r := rfl
@[simp] theorem State.enterFault_byte (s : State) (k : Fault) (i p : Word) (a : Nat) :
    (s.enterFault k i p).byte a = s.byte a := rfl

/-! ### `resetCore` -/

@[simp] theorem State.resetCore_cfg (s : State) : s.resetCore.cfg = s.cfg := rfl
@[simp] theorem State.resetCore_regs (s : State) : s.resetCore.regs = Regs.zero := rfl
@[simp] theorem State.resetCore_mem (s : State) : s.resetCore.mem = [] := rfl
@[simp] theorem State.resetCore_status (s : State) : s.resetCore.status = Status.running := rfl
@[simp] theorem State.resetCore_started (s : State) : s.resetCore.started = false := rfl
@[simp] theorem State.resetCore_writeEvents (s : State) : s.resetCore.writeEvents = [] := rfl

end Sys2Proof.Machine
end

