-- ==== Sys2Proof/Laws/Memory.lean ====
section
/-! SUPPORT. The laws of memory: reading after a write, the canonical form that every write keeps, and what each of the
four primitives can answer (20_memory.md R42 to R45). -/

namespace Sys2Proof.Machine

@[simp] theorem Memory.get_nil (a : Nat) : Memory.get [] a = 0 := rfl

/-- In a canonical memory no listed address is below the first. -/
theorem Memory.get_eq_zero_of_lt {m : Memory} {a : Nat} (h : ∀ c ∈ m, a < c.1) : m.get a = 0 := by
  induction m with
  | nil => rfl
  | cons c m ih =>
    have hc := h c (by simp)
    simp only [Memory.get]
    rw [if_neg (by omega)]
    exact ih fun d hd => h d (by simp [hd])

/-- Every entry of an updated memory is an old one or the new byte. -/
theorem Memory.mem_set {m : Memory} {a : Nat} {b : Byte} {c : Host.Cell} (h : c ∈ m.set a b) :
    c ∈ m ∨ (c = (a, b) ∧ b ≠ 0) := by
  induction m with
  | nil =>
    simp only [Memory.set] at h
    split at h <;> simp_all
  | cons d m ih =>
    simp only [Memory.set] at h
    split at h
    · rcases List.mem_cons.1 h with rfl | h
      · simp
      · rcases ih h with h | h
        · simp [h]
        · exact .inr h
    · split at h <;> split at h <;> simp only [List.mem_cons] at h ⊢ <;> tauto

/-- A write keeps the canonical form. -/
theorem Memory.set_wf {m : Memory} (h : m.wf) (a : Nat) (b : Byte) : (m.set a b).wf := by
  obtain ⟨hp, hz⟩ := h
  refine ⟨?_, fun c hc => ?_⟩
  · induction m with
    | nil => simp only [Memory.set]; split <;> simp
    | cons d m ih =>
      obtain ⟨hd, hm⟩ := List.pairwise_cons.1 hp
      have hz' : ∀ c ∈ m, c.2 ≠ 0 := fun c hc => hz c (by simp [hc])
      simp only [Memory.set]
      split
      · next hlt =>
        refine List.pairwise_cons.2 ⟨fun c hc => ?_, ih hm hz'⟩
        rcases Memory.mem_set hc with hc | ⟨rfl, -⟩
        · exact hd c hc
        · exact hlt
      · next hge =>
        split
        · next heq =>
          split
          · exact hm
          · exact List.pairwise_cons.2 ⟨fun c hc => by have := hd c hc; simp only; omega, hm⟩
        · next hne =>
          split
          · exact hp
          · refine List.pairwise_cons.2 ⟨fun c hc => ?_, hp⟩
            rcases List.mem_cons.1 hc with rfl | hc
            · simp only; omega
            · have := hd c hc; simp only; omega
  · rcases Memory.mem_set hc with hc | ⟨rfl, hb⟩
    · exact hz c hc
    · exact hb

/-- Reading after a write to a canonical memory. -/
theorem Memory.get_set {m : Memory} (h : m.wf) (a k : Nat) (b : Byte) :
    (m.set a b).get k = if k = a then b else m.get k := by
  obtain ⟨hp, -⟩ := h
  induction m with
  | nil =>
    simp only [Memory.set, Memory.get]
    split
    · next hb => simp [hb]
    · simp only [Memory.get, eq_comm]
  | cons d m ih =>
    obtain ⟨hd, hm⟩ := List.pairwise_cons.1 hp
    simp only [Memory.set]
    split
    · next hlt =>
      simp only [Memory.get]
      rw [ih hm]
      split
      · next hk => rw [if_neg (by omega)]
      · rfl
    · next hge =>
      split
      · next heq =>
        split
        · next hb =>
          simp only [Memory.get]
          split
          · next hk =>
            rw [Memory.get_eq_zero_of_lt (fun c hc => by have := hd c hc; omega), hb]
          · next hk => rw [if_neg (by omega)]
        · simp only [Memory.get]
          by_cases hk : k = a
          · rw [if_pos hk.symm, if_pos hk]
          · rw [if_neg (Ne.symm hk), if_neg hk, if_neg (by omega)]
      · next hne =>
        split
        · next hb =>
          split
          · next hk =>
            rw [Memory.get_eq_zero_of_lt, hb]
            intro c hc
            rcases List.mem_cons.1 hc with rfl | hc
            · omega
            · have := hd c hc; omega
          · rfl
        · simp only [Memory.get]
          by_cases hk : k = a
          · rw [if_pos hk.symm, if_pos hk]
          · rw [if_neg (Ne.symm hk), if_neg hk]

/-! ### The four primitives: when each answers, and with what -/

/-- R42: a byte read answers exactly inside memory. -/
theorem State.memRead8_eq_some {s : State} {a : Nat} {b : Byte} :
    s.memRead8 a = some b ↔ a < s.cfg.memSize ∧ s.byte a = b := by
  unfold State.memRead8
  split <;> simp <;> omega

@[simp] theorem State.memRead8_eq_none {s : State} {a : Nat} : s.memRead8 a = none ↔ s.cfg.memSize ≤ a := by
  simp [State.memRead8]

/-- R44: a word read answers exactly when both bytes are inside memory. -/
theorem State.memRead16_eq_some {s : State} {a : Nat} {w : Word} :
    s.memRead16 a = some w ↔ a + 1 < s.cfg.memSize ∧ wordOfBytes (s.byte a) (s.byte (a + 1)) = w := by
  unfold State.memRead16
  split <;> simp <;> omega

@[simp] theorem State.memRead16_eq_none {s : State} {a : Nat} : s.memRead16 a = none ↔ s.cfg.memSize ≤ a + 1 := by
  simp [State.memRead16]

/-- R43: a byte write answers exactly inside memory, and changes memory alone. -/
theorem State.memWrite8_eq_some {s t : State} {a : Nat} {v : Byte} :
    s.memWrite8 a v = some t ↔ a < s.cfg.memSize ∧ { s with mem := s.mem.set a v } = t := by
  unfold State.memWrite8
  split <;> simp <;> omega

@[simp] theorem State.memWrite8_eq_none {s : State} {a : Nat} {v : Byte} :
    s.memWrite8 a v = none ↔ s.cfg.memSize ≤ a := by
  simp [State.memWrite8]

/-- R45: a word write answers exactly when both bytes are inside memory, and changes memory alone. -/
theorem State.memWrite16_eq_some {s t : State} {a : Nat} {v : Word} :
    s.memWrite16 a v = some t ↔
      a + 1 < s.cfg.memSize ∧ { s with mem := (s.mem.set a (wordHi v)).set (a + 1) (wordLo v) } = t := by
  unfold State.memWrite16
  split <;> simp <;> omega

@[simp] theorem State.memWrite16_eq_none {s : State} {a : Nat} {v : Word} :
    s.memWrite16 a v = none ↔ s.cfg.memSize ≤ a + 1 := by
  simp [State.memWrite16]

/-- R45, R47: the bytes after a word write to a canonical memory. -/
theorem State.byte_of_memWrite16 {s t : State} {a : Nat} {v : Word} (hm : s.mem.wf) (h : s.memWrite16 a v = some t)
    (k : Nat) : t.byte k = if k = a + 1 then wordLo v else if k = a then wordHi v else s.byte k := by
  obtain ⟨-, rfl⟩ := State.memWrite16_eq_some.1 h
  simp only [State.byte]
  rw [Memory.get_set (Memory.set_wf hm _ _), Memory.get_set hm]

/-- The memory primitives keep the canonical form. -/
theorem State.memWrite8_wf {s t : State} {a : Nat} {v : Byte} (hm : s.mem.wf) (h : s.memWrite8 a v = some t) :
    t.mem.wf := by
  obtain ⟨-, rfl⟩ := State.memWrite8_eq_some.1 h
  exact Memory.set_wf hm _ _

/-- The memory primitives keep the canonical form. -/
theorem State.memWrite16_wf {s t : State} {a : Nat} {v : Word} (hm : s.mem.wf) (h : s.memWrite16 a v = some t) :
    t.mem.wf := by
  obtain ⟨-, rfl⟩ := State.memWrite16_eq_some.1 h
  exact Memory.set_wf (Memory.set_wf hm _ _) _ _

/-- The memory of the reset state is canonical. -/
theorem State.reset_mem_wf : State.reset.mem.wf := by
  decide

end Sys2Proof.Machine
end

