-- ==== Sys2Proof/Laws/Ops.lean ====
section
/-! SUPPORT. What each shared operation of instruction fetch can do: the two fetch primitives (40_engine.md R80, R81), one
operand of a decode, and the raising of a rejected fetch (60_exceptions.md R143). -/

namespace Sys2Proof.Machine

/-- R80: a byte fetch answers exactly when IP is inside memory; it reads the byte there and advances IP by 1. -/
theorem State.fetch8_eq_some {s t : State} {b : Byte} :
    s.fetch8 = some (b, t) ↔ (s.reg .ip).toNat < s.cfg.memSize ∧ s.byte (s.reg .ip).toNat = b ∧ s.advance 1 = t := by
  unfold State.fetch8
  split
  · next h => simp at h; simp; omega
  · next b' h =>
    obtain ⟨h1, rfl⟩ := State.memRead8_eq_some.1 h
    simp [h1]

/-- R80: a byte fetch fails exactly when IP is outside memory. -/
@[simp] theorem State.fetch8_eq_none {s : State} : s.fetch8 = none ↔ s.cfg.memSize ≤ (s.reg .ip).toNat := by
  unfold State.fetch8
  split
  · next h => simpa using h
  · next b h =>
    obtain ⟨h1, -⟩ := State.memRead8_eq_some.1 h
    simp; omega

/-- R81: a word fetch answers exactly when both bytes at IP are inside memory; it advances IP by 2. -/
theorem State.fetch16_eq_some {s t : State} {w : Word} :
    s.fetch16 = some (w, t) ↔ (s.reg .ip).toNat + 1 < s.cfg.memSize ∧
      wordOfBytes (s.byte (s.reg .ip).toNat) (s.byte ((s.reg .ip).toNat + 1)) = w ∧ s.advance 2 = t := by
  unfold State.fetch16
  split
  · next h => simp at h; simp; omega
  · next w' h =>
    obtain ⟨h1, rfl⟩ := State.memRead16_eq_some.1 h
    simp [h1]

/-- R81: a word fetch fails exactly when the second byte is outside memory. -/
@[simp] theorem State.fetch16_eq_none {s : State} : s.fetch16 = none ↔ s.cfg.memSize ≤ (s.reg .ip).toNat + 1 := by
  unfold State.fetch16
  split
  · next h => simpa using h
  · next b h =>
    obtain ⟨h1, -⟩ := State.memRead16_eq_some.1 h
    simp; omega

@[simp] theorem memorySource_byte : memorySource.byte = State.fetch8 := rfl
@[simp] theorem memorySource_word : memorySource.word = State.fetch16 := rfl

/-- A word operand is consumed, or the fetch fails where it stands (40_engine.md R81, R85). -/
theorem withWord_memory (s : State) (k : Word → State → Decoded State) :
    memorySource.withWord s k =
      if s.cfg.memSize ≤ (s.reg .ip).toNat + 1 then .reject .fetchFailed s
      else k (wordOfBytes (s.byte (s.reg .ip).toNat) (s.byte ((s.reg .ip).toNat + 1))) (s.advance 2) := by
  unfold Source.withWord
  rw [memorySource_word]
  split
  · next h => simp at h; simp [h]
  · next w t h =>
    obtain ⟨h1, rfl, rfl⟩ := State.fetch16_eq_some.1 h
    rw [if_neg (by omega)]

/-- A register operand is consumed and resolved, or the fetch fails where it stands, or the id names no register
(40_engine.md R80, R84, R85). -/
theorem withReg_memory (s : State) (k : RegName → State → Decoded State) :
    memorySource.withReg s k =
      if s.cfg.memSize ≤ (s.reg .ip).toNat then .reject .fetchFailed s
      else match RegName.ofId (s.byte (s.reg .ip).toNat) with
        | none => .reject (.invalidRegisterId (s.byte (s.reg .ip).toNat)) (s.advance 1)
        | some r => k r (s.advance 1) := by
  unfold Source.withReg
  rw [memorySource_byte]
  split
  · next h => simp at h; simp [h]
  · next b t h =>
    obtain ⟨h1, rfl, rfl⟩ := State.fetch8_eq_some.1 h
    rw [if_neg (by omega)] <;> cases RegName.ofId (s.byte (s.reg .ip).toNat) <;> rfl

/-- Raising a rejected fetch changes STATUS alone. -/
theorem State.raiseReject_eq (t : State) (r : Reject) (start : Word) :
    t.raiseReject r start =
      { t with status := ⟨.faulted, some (t.rejectFault r).1, (t.rejectFault r).2, start⟩ } := rfl

end Sys2Proof.Machine
end

