-- ==== Sys2Proof/Laws/PerInstr.lean ====
section
/-! SUPPORT. Facts about every instruction as syntax, one lemma per constructor. -/

namespace Sys2Proof.Laws.EncodingShape

/-- The encoding of an instruction is its opcode byte and then its operand bytes, as many in all as the bytes its
fetches read (20_memory.md R51; 30_encoding.md R60, R64). -/
def Statement (i : Instr) : Prop :=
  ∀ op : OpcodeMap, (encode op i).head? = some (op.code i.mnemonic) ∧ (encode op i).length = i.length

theorem movLitReg (lit : Word) (dest : RegName) : Statement (.movLitReg lit dest) := fun _ => ⟨rfl, rfl⟩
theorem movRegReg (src dest : RegName) : Statement (.movRegReg src dest) := fun _ => ⟨rfl, rfl⟩
theorem movRegMem (src : RegName) (addr : Word) : Statement (.movRegMem src addr) := fun _ => ⟨rfl, rfl⟩
theorem movMemReg (addr : Word) (dest : RegName) : Statement (.movMemReg addr dest) := fun _ => ⟨rfl, rfl⟩
theorem addRegReg (op1 op2 : RegName) : Statement (.addRegReg op1 op2) := fun _ => ⟨rfl, rfl⟩
theorem jmpNotEq (lit target : Word) : Statement (.jmpNotEq lit target) := fun _ => ⟨rfl, rfl⟩

end Sys2Proof.Laws.EncodingShape
end

