-- ==== Sys2Proof/Laws/Step.lean ====
section
/-! SUPPORT. What fetching an instruction can answer, what each meaning can answer, and what a step can do. Later proofs
cite these and do not unfold the decoder, a meaning or the step again. -/

namespace Sys2Proof.Machine

/-! ### Fetching an instruction -/

/-- The opcode fetch and dispatch (40_engine.md R82, R83), with the primitives spelled out. -/
theorem State.fetchInstr_eq (s : State) :
    s.fetchInstr =
      if s.cfg.memSize ≤ (s.reg .ip).toNat then .reject .fetchFailed s
      else match s.cfg.opcodes.lookup (s.byte (s.reg .ip).toNat) with
        | none => .reject (.invalidOpcode (s.byte (s.reg .ip).toNat)) (s.advance 1)
        | some m => decodeOperands memorySource (s.advance 1) m := by
  unfold State.fetchInstr decodeFrom
  rw [memorySource_byte]
  split
  · next h => simp at h; simp [h]
  · next b t h =>
    obtain ⟨h1, rfl, rfl⟩ := State.fetch8_eq_some.1 h
    rw [if_neg (by omega)] <;> cases s.cfg.opcodes.lookup (s.byte (s.reg .ip).toNat) <;> rfl

/-- A fetched word operand was inside memory, and decoding went on behind it. -/
theorem withWord_memory_ok {s rest : State} {k : Word → State → Decoded State} {i : Instr}
    (h : memorySource.withWord s k = .ok i rest) : ∃ w, k w (s.advance 2) = .ok i rest := by
  rw [withWord_memory] at h
  split at h
  · cases h
  · exact ⟨_, h⟩

/-- A fetched register operand named a register, and decoding went on behind it. -/
theorem withReg_memory_ok {s rest : State} {k : RegName → State → Decoded State} {i : Instr}
    (h : memorySource.withReg s k = .ok i rest) : ∃ r, k r (s.advance 1) = .ok i rest := by
  rw [withReg_memory] at h
  split at h
  · cases h
  · split at h
    · cases h
    · exact ⟨_, h⟩

/-- The fault a rejected fetch raises can hold this info (60_exceptions.md R142). -/
abbrev State.RejectOk (t : State) (r : Reject) : Prop :=
  (t.rejectFault r).1.infoOk t.cfg (t.rejectFault r).2 = true

/-- A word operand is rejected where its fetch fails, or behind it. -/
theorem withWord_memory_reject {s t : State} {k : Word → State → Decoded State} {r : Reject}
    (h : memorySource.withWord s k = .reject r t) :
    (t = s ∧ t.RejectOk r) ∨ ∃ w, k w (s.advance 2) = .reject r t := by
  rw [withWord_memory] at h
  split at h
  · next hm =>
    cases h
    exact .inl ⟨rfl, decide_eq_true hm⟩
  · exact .inr ⟨_, h⟩

/-- A register operand is rejected where its fetch fails, just behind its byte, or behind it. -/
theorem withReg_memory_reject {s t : State} {k : RegName → State → Decoded State} {r : Reject}
    (h : memorySource.withReg s k = .reject r t) :
    ((t = s ∨ t = s.advance 1) ∧ t.RejectOk r) ∨ ∃ q, k q (s.advance 1) = .reject r t := by
  rw [withReg_memory] at h
  split at h
  · next hm =>
    cases h
    exact .inl ⟨.inl rfl, decide_eq_true (Nat.le_succ_of_le hm)⟩
  · split at h
    · next hid =>
      cases h
      refine .inl ⟨.inr rfl, ?_⟩
      have hb := RegName.ofId_eq_none.1 hid
      have hlt := (s.byte (s.reg .ip).toNat).isLt
      simp only [State.RejectOk, State.rejectFault, Fault.infoOk, zext16, BitVec.toNat_setWidth, Bool.and_eq_true,
        decide_eq_true_eq]
      omega
    · exact .inr ⟨_, h⟩

/-- An instruction that is fetched whole leaves IP just past it (40_engine.md R90), and its opcode byte selected it. -/
theorem State.fetchInstr_ok {s rest : State} {i : Instr} (h : s.fetchInstr = .ok i rest) :
    (s.reg .ip).toNat < s.cfg.memSize ∧
      s.cfg.opcodes.lookup (s.byte (s.reg .ip).toNat) = some i.mnemonic ∧ rest = s.advance i.length := by
  rw [State.fetchInstr_eq] at h
  split at h
  · cases h
  · next hm =>
    refine ⟨by omega, ?_⟩
    split at h
    · cases h
    · next m hl =>
      rw [hl]
      cases m with
      | movLitReg =>
        obtain ⟨w, h⟩ := withWord_memory_ok h
        obtain ⟨q, h⟩ := withReg_memory_ok h
        cases h
        exact ⟨rfl, by simp [Instr.length, Instr.mnemonic, Mnemonic.length, Mnemonic.fetchWidths]⟩
      | movRegReg =>
        obtain ⟨q, h⟩ := withReg_memory_ok h
        obtain ⟨q', h⟩ := withReg_memory_ok h
        cases h
        exact ⟨rfl, by simp [Instr.length, Instr.mnemonic, Mnemonic.length, Mnemonic.fetchWidths]⟩
      | movRegMem =>
        obtain ⟨q, h⟩ := withReg_memory_ok h
        obtain ⟨w, h⟩ := withWord_memory_ok h
        cases h
        exact ⟨rfl, by simp [Instr.length, Instr.mnemonic, Mnemonic.length, Mnemonic.fetchWidths]⟩
      | movMemReg =>
        obtain ⟨w, h⟩ := withWord_memory_ok h
        obtain ⟨q, h⟩ := withReg_memory_ok h
        cases h
        exact ⟨rfl, by simp [Instr.length, Instr.mnemonic, Mnemonic.length, Mnemonic.fetchWidths]⟩
      | addRegReg =>
        obtain ⟨q, h⟩ := withReg_memory_ok h
        unfold addRejectOrder at h
        split at h
        · next i' t h' =>
          cases h
          obtain ⟨q', h'⟩ := withReg_memory_ok h'
          cases h'
          exact ⟨rfl, by simp [Instr.length, Instr.mnemonic, Mnemonic.length, Mnemonic.fetchWidths]⟩
        · split at h <;> cases h
      | jmpNotEq =>
        obtain ⟨w, h⟩ := withWord_memory_ok h
        obtain ⟨w', h⟩ := withWord_memory_ok h
        cases h
        exact ⟨rfl, by simp [Instr.length, Instr.mnemonic, Mnemonic.length, Mnemonic.fetchWidths]⟩

/-- A rejected operand fetch leaves IP past the completed fetches and raises a fault with an info it can hold. -/
theorem decodeOperands_reject {s t : State} {m : Mnemonic} {r : Reject}
    (h : decodeOperands memorySource s m = .reject r t) : ∃ n ≤ 4, t = s.advance n ∧ t.RejectOk r := by
  have h0 : s = s.advance 0 := by simp [State.advance]
  cases m with
  | movLitReg =>
    obtain ⟨rfl, hr⟩ | ⟨w, h⟩ := withWord_memory_reject h
    · exact ⟨0, by omega, h0, hr⟩
    · obtain ⟨rfl | rfl, hr⟩ | ⟨q, h⟩ := withReg_memory_reject h
      · exact ⟨2, by omega, rfl, hr⟩
      · exact ⟨3, by omega, by simp, hr⟩
      · cases h
  | movRegReg =>
    obtain ⟨rfl | rfl, hr⟩ | ⟨q, h⟩ := withReg_memory_reject h
    · exact ⟨0, by omega, h0, hr⟩
    · exact ⟨1, by omega, rfl, hr⟩
    · obtain ⟨rfl | rfl, hr⟩ | ⟨q, h⟩ := withReg_memory_reject h
      · exact ⟨1, by omega, rfl, hr⟩
      · exact ⟨2, by omega, by simp, hr⟩
      · cases h
  | movRegMem =>
    obtain ⟨rfl | rfl, hr⟩ | ⟨q, h⟩ := withReg_memory_reject h
    · exact ⟨0, by omega, h0, hr⟩
    · exact ⟨1, by omega, rfl, hr⟩
    · obtain ⟨rfl, hr⟩ | ⟨w, h⟩ := withWord_memory_reject h
      · exact ⟨1, by omega, rfl, hr⟩
      · cases h
  | movMemReg =>
    obtain ⟨rfl, hr⟩ | ⟨w, h⟩ := withWord_memory_reject h
    · exact ⟨0, by omega, h0, hr⟩
    · obtain ⟨rfl | rfl, hr⟩ | ⟨q, h⟩ := withReg_memory_reject h
      · exact ⟨2, by omega, rfl, hr⟩
      · exact ⟨3, by omega, by simp, hr⟩
      · cases h
  | addRegReg =>
    obtain ⟨rfl | rfl, hr⟩ | ⟨q, h⟩ := withReg_memory_reject h
    · exact ⟨0, by omega, h0, hr⟩
    · exact ⟨1, by omega, rfl, hr⟩
    · unfold addRejectOrder at h
      split at h
      · cases h
      · next r' t' h' =>
        split at h
        · cases h
          obtain ⟨rfl | rfl, hr⟩ | ⟨q, h'⟩ := withReg_memory_reject h'
          · exact ⟨1, by omega, rfl, hr⟩
          · exact ⟨2, by omega, by simp, hr⟩
          · cases h'
        · next hq =>
          cases h
          refine ⟨1, by omega, rfl, ?_⟩
          cases q <;> first | rfl | exact absurd rfl hq
  | jmpNotEq =>
    obtain ⟨rfl, hr⟩ | ⟨w, h⟩ := withWord_memory_reject h
    · exact ⟨0, by omega, h0, hr⟩
    · obtain ⟨rfl, hr⟩ | ⟨w, h⟩ := withWord_memory_reject h
      · exact ⟨2, by omega, rfl, hr⟩
      · cases h

/-- A rejected fetch leaves IP past the completed fetches and raises a fault with an info it can hold. -/
theorem State.fetchInstr_reject {s t : State} {r : Reject} (h : s.fetchInstr = .reject r t) :
    ∃ n ≤ 5, t = s.advance n ∧ t.RejectOk r := by
  rw [State.fetchInstr_eq] at h
  split at h
  · next hm =>
    cases h
    exact ⟨0, by omega, by simp [State.advance], decide_eq_true (Nat.le_succ_of_le hm)⟩
  · split at h
    · next hl =>
      cases h
      refine ⟨1, by omega, rfl, ?_⟩
      have hlt := (s.byte (s.reg .ip).toNat).isLt
      have hb : ((s.byte (s.reg .ip).toNat).setWidth 16).setWidth 8 = s.byte (s.reg .ip).toNat := by simp
      simp only [State.RejectOk, State.rejectFault, Fault.infoOk, zext16, hb, State.advance_cfg, hl,
        BitVec.toNat_setWidth, Option.isNone_none, Bool.and_true, decide_eq_true_eq]
      omega
    · next m hl =>
      obtain ⟨n, hn, rfl, hr⟩ := decodeOperands_reject h
      exact ⟨1 + n, by omega, by simp, hr⟩

/-! ### The meanings -/

theorem exec_movLitReg (lit : Word) (dest : RegName) (s : State) :
    exec (.movLitReg lit dest) s = .next ((s.advance 4).setReg dest lit) := rfl

theorem exec_movRegReg (src dest : RegName) (s : State) :
    exec (.movRegReg src dest) s = .next ((s.advance 3).setReg dest ((s.advance 3).reg src)) := rfl

/-- The state after a store of `src` at `addr`: two bytes, one output, IP four on (R102). -/
abbrev State.afterStore (s : State) (src : RegName) (addr : Word) : State :=
  { s.advance 4 with
    mem := (s.mem.set addr.toNat (wordHi ((s.advance 4).reg src))).set (addr.toNat + 1) (wordLo ((s.advance 4).reg src))
    writeEvents := s.writeEvents ++ [⟨addr, (s.advance 4).reg src⟩] }

theorem exec_movRegMem_inside {s : State} {addr : Word} (src : RegName) (h : addr.toNat + 1 < s.cfg.memSize) :
    exec (.movRegMem src addr) s = .next (s.afterStore src addr) := by
  have h1 : (s.advance 4).memWrite16 addr.toNat ((s.advance 4).reg src) = some _ :=
    State.memWrite16_eq_some.2 ⟨h, rfl⟩
  simp only [exec, execMovRegMem, show Mnemonic.movRegMem.length = 4 from rfl, h1]
  rfl

theorem exec_movRegMem_outside {s : State} {addr : Word} (src : RegName) (h : s.cfg.memSize ≤ addr.toNat + 1) :
    exec (.movRegMem src addr) s = .next ((s.advance 4).enterFault .outOfBoundsAddress addr (s.reg .ip)) := by
  have h1 : (s.advance 4).memWrite16 addr.toNat ((s.advance 4).reg src) = none := by simpa using h
  simp only [exec, execMovRegMem, show Mnemonic.movRegMem.length = 4 from rfl, h1]

/-- The bytes after a store (20_memory.md R45, R47). -/
theorem State.afterStore_byte {s : State} (hm : s.mem.wf) (src : RegName) (addr : Word) (k : Nat) :
    (s.afterStore src addr).byte k =
      if k = addr.toNat + 1 then wordLo ((s.advance 4).reg src)
      else if k = addr.toNat then wordHi ((s.advance 4).reg src) else s.byte k := by
  simp only [State.byte]
  rw [Memory.get_set (Memory.set_wf hm _ _), Memory.get_set hm]

theorem exec_movMemReg_inside {s : State} {addr : Word} (dest : RegName) (h : addr.toNat + 1 < s.cfg.memSize) :
    exec (.movMemReg addr dest) s =
      .next ((s.advance 4).setReg dest (wordOfBytes (s.byte addr.toNat) (s.byte (addr.toNat + 1)))) := by
  have h1 : (s.advance 4).memRead16 addr.toNat = some _ := State.memRead16_eq_some.2 ⟨h, rfl⟩
  simp only [exec, execMovMemReg, show Mnemonic.movMemReg.length = 4 from rfl, h1]
  rfl

theorem exec_movMemReg_outside {s : State} {addr : Word} (dest : RegName) (h : s.cfg.memSize ≤ addr.toNat + 1) :
    exec (.movMemReg addr dest) s = .next ((s.advance 4).enterFault .outOfBoundsAddress addr (s.reg .ip)) := by
  have h1 : (s.advance 4).memRead16 addr.toNat = none := by simpa using h
  simp only [exec, execMovMemReg, show Mnemonic.movMemReg.length = 4 from rfl, h1]

theorem exec_addRegReg_supported {op1 op2 : RegName} (h1 : op1.isAddOperand = true) (h2 : op2.isAddOperand = true)
    (s : State) :
    exec (.addRegReg op1 op2) s =
      .next ((s.advance 3).setReg .acc (aluAdd ((s.advance 3).reg op1) ((s.advance 3).reg op2))) := by
  simp only [exec, execAddRegReg, h1, h2]
  rfl

theorem exec_addRegReg_op1 {op1 : RegName} (h1 : op1.isAddOperand = false) (op2 : RegName) (s : State) :
    exec (.addRegReg op1 op2) s =
      .next ((s.advance 2).enterFault .unsupportedOperand (zext16 op1.id) (s.reg .ip)) := by
  simp only [exec, execAddRegReg, h1]
  rfl

theorem exec_addRegReg_op2 {op1 op2 : RegName} (h1 : op1.isAddOperand = true) (h2 : op2.isAddOperand = false)
    (s : State) :
    exec (.addRegReg op1 op2) s =
      .next ((s.advance 3).enterFault .unsupportedOperand (zext16 op2.id) (s.reg .ip)) := by
  simp only [exec, execAddRegReg, h1, h2]
  rfl

theorem exec_jmpNotEq (lit target : Word) (s : State) :
    exec (.jmpNotEq lit target) s = .next (if lit = s.reg .acc then s.advance 5 else s.setReg .ip target) := by
  simp only [exec, execJmpNotEq, aluNotEqual, show Mnemonic.jmpNotEq.length = 5 from rfl]
  split <;> split <;> simp_all

/-- What an instruction can do, in one list: complete without touching STATUS, its one write a register or a word with
its output (40_engine.md R87), or latch a fault (R88). -/
theorem exec_cases (i : Instr) (s : State) :
    ∃ n ≤ 5,
      (∃ r v, exec i s = .next ((s.advance n).setReg r v)) ∨
      (exec i s = .next (s.advance n)) ∨
      (∃ src addr t, i = .movRegMem src addr ∧ (s.advance n).memWrite16 addr.toNat ((s.advance n).reg src) = some t ∧
        exec i s = .next (t.emit addr ((s.advance n).reg src))) ∨
      (∃ k info, k.infoOk s.cfg info = true ∧ exec i s = .next ((s.advance n).enterFault k info (s.reg .ip))) := by
  cases i with
  | movLitReg lit dest => exact ⟨4, by omega, .inl ⟨dest, lit, rfl⟩⟩
  | movRegReg src dest => exact ⟨3, by omega, .inl ⟨dest, _, rfl⟩⟩
  | movRegMem src addr =>
    refine ⟨4, by omega, .inr (.inr ?_)⟩
    simp only [exec, execMovRegMem, show Mnemonic.movRegMem.length = 4 from rfl]
    split
    · next t h => exact .inl ⟨src, addr, t, rfl, h, rfl⟩
    · next h => exact .inr ⟨_, _, by simpa [Fault.infoOk] using h, rfl⟩
  | movMemReg addr dest =>
    refine ⟨4, by omega, ?_⟩
    simp only [exec, execMovMemReg, show Mnemonic.movMemReg.length = 4 from rfl]
    split
    · exact .inl ⟨_, _, rfl⟩
    · next h => exact .inr (.inr (.inr ⟨_, _, by simpa [Fault.infoOk] using h, rfl⟩))
  | addRegReg op1 op2 =>
    simp only [exec, execAddRegReg]
    split
    · next h =>
      refine ⟨2, by omega, .inr (.inr (.inr ⟨_, _, ?_, rfl⟩))⟩
      cases op1 <;> first | rfl | cases h
    · split
      · next h =>
        refine ⟨3, by omega, .inr (.inr (.inr ⟨_, _, ?_, rfl⟩))⟩
        cases op2 <;> first | rfl | cases h
      · exact ⟨3, by omega, .inl ⟨_, _, rfl⟩⟩
  | jmpNotEq lit target =>
    refine ⟨5, by omega, ?_⟩
    simp only [exec, execJmpNotEq, show Mnemonic.jmpNotEq.length = 5 from rfl]
    split
    · exact .inl ⟨_, _, rfl⟩
    · exact .inr (.inl rfl)

/-- A meaning always answers a next state. -/
theorem exec_next (i : Instr) (s : State) : ∃ t, exec i s = .next t := by
  obtain ⟨n, -, ⟨r, v, h⟩ | h | ⟨src, addr, t, -, -, h⟩ | ⟨k, info, -, h⟩⟩ := exec_cases i s <;> exact ⟨_, h⟩

/-- The IP that a meaning which latches a fault leaves (40_engine.md R88): just past the instruction, but for ADD_REG_REG's
first operand, where the second byte is not fetched. -/
theorem exec_faulted_ip {i : Instr} {s t : State} (hs : s.status.state = .running) (h : exec i s = .next t)
    (ht : t.status.state = .faulted) :
    t.reg .ip =
      match i with
      | .addRegReg op1 _ => if op1 = .r1 ∨ op1 = .r2 then (s.advance i.length).reg .ip else s.reg .ip + 2
      | .movLitReg _ _ | .movRegReg _ _ | .movRegMem _ _ | .movMemReg _ _ | .jmpNotEq _ _ =>
        (s.advance i.length).reg .ip := by
  cases i with
  | movLitReg lit dest => rw [exec_movLitReg] at h; cases h; simp [hs] at ht
  | movRegReg src dest => rw [exec_movRegReg] at h; cases h; simp [hs] at ht
  | movRegMem src addr =>
    rcases Nat.lt_or_ge (addr.toNat + 1) s.cfg.memSize with hm | hm
    · rw [exec_movRegMem_inside _ hm] at h; cases h; simp [hs] at ht
    · rw [exec_movRegMem_outside _ hm] at h; cases h; rfl
  | movMemReg addr dest =>
    rcases Nat.lt_or_ge (addr.toNat + 1) s.cfg.memSize with hm | hm
    · rw [exec_movMemReg_inside _ hm] at h; cases h; simp [hs] at ht
    · rw [exec_movMemReg_outside _ hm] at h; cases h; rfl
  | addRegReg op1 op2 =>
    cases h1 : op1.isAddOperand with
    | false =>
      rw [exec_addRegReg_op1 h1] at h
      cases h
      cases op1 <;> first | rfl | cases h1
    | true =>
      cases h2 : op2.isAddOperand with
      | false =>
        rw [exec_addRegReg_op2 h1 h2] at h
        cases h
        cases op1 <;> first | rfl | cases h1
      | true => rw [exec_addRegReg_supported h1 h2] at h; cases h; simp [hs] at ht
  | jmpNotEq lit target =>
    rw [exec_jmpNotEq] at h
    cases h
    split at ht <;> simp [hs] at ht

/-! ### The step -/

theorem step_faulted {s : State} (h : s.status.state = .faulted) : step s = .next s := by
  simp [step, h]

theorem step_rejected {s t : State} {r : Reject} (h : s.status.state = .running)
    (hf : s.begin.fetchInstr = .reject r t) : step s = .next (t.raiseReject r (s.reg .ip)) := by
  simp [step, h, hf]

/-- What a step can do, in one list: nothing in the fault state; the meaning of the fetched instruction; or the fault
of its fetch, which changes IP and STATUS only. -/
theorem step_cases {s t : State} (h : step s = .next t) :
    (s.status.state = .faulted ∧ t = s) ∨
    (s.status.state = .running ∧ ∃ i, s.begin.fetchInstr = .ok i (s.begin.advance i.length) ∧ exec i s.begin = .next t) ∨
    (s.status.state = .running ∧ ∃ r u n k info, s.begin.fetchInstr = .reject r u ∧ n ≤ 5 ∧
      k.infoOk s.cfg info = true ∧ t = (s.begin.advance n).enterFault k info (s.reg .ip)) := by
  cases hs : s.status.state with
  | faulted =>
    rw [step_faulted hs] at h
    cases h
    exact .inl ⟨rfl, rfl⟩
  | running =>
    refine .inr ?_
    cases hf : s.begin.fetchInstr with
    | ok i rest =>
      obtain ⟨-, -, rfl⟩ := State.fetchInstr_ok hf
      exact .inl ⟨rfl, i, rfl, by simpa [step, hs, hf] using h⟩
    | reject r u =>
      rw [step_rejected hs hf] at h
      cases h
      obtain ⟨n, hn, rfl, hr⟩ := State.fetchInstr_reject hf
      exact .inr ⟨rfl, r, _, n, _, _, rfl, hn, hr, rfl⟩

end Sys2Proof.Machine
end

