-- ==== Sys2Proof/Tests/Slice0.lean ====
section
/-! SUPPORT. The model's own tests. The expected results are the vectors of 95_test_vectors.md, worked out there by hand from the
rules (named in each comment), never an answer of the model. The second half gives, for every statement that has
hypotheses, a state and operands that meet them. -/

open Sys2Proof Sys2Proof.Machine

namespace Sys2Proof.Tests

/-! ### Helpers -/

/-- The outcome is a next state with this property. -/
def nextIs (o : Host.Outcome State Fault Refusal) (p : State → Bool) : Bool :=
  match o with
  | .next t => p t
  | .fault _ => false
  | .refused _ => false

/-- The state after reset with `n` bytes of memory, `bytes` loaded from `at0` and IP there. -/
def codeAt (n : Nat) (at0 : Nat) (bytes : List Byte) : State :=
  ((State.resetOf ⟨n, OpcodeMap.standard⟩).placeBytes
    ((List.range bytes.length).map (at0 + ·) |>.zip bytes)).setReg .ip (BitVec.ofNat 16 at0)

/-- The same at address 0 of 65536 bytes. -/
def code0 (bytes : List Byte) : State := codeAt 65536 0 bytes

/-- STATUS, IP and `fault_pc` of a vector's FAULT. -/
def faulted (t : State) (k : Fault) (info ip start : Word) : Bool :=
  t.status == ⟨.faulted, some k, info, start⟩ && t.reg .ip == ip

/-- The vector's OK. -/
def ok (t : State) (ip : Word) : Bool := t.status == Status.running && t.reg .ip == ip

/-! ### Well-formedness and decoding -/

/-- R120: an operand other than R1 and R2 is refused, in either place. -/
theorem test_wellFormed_refuses :
    (Instr.addRegReg .acc .r1).wellFormed = false ∧ (Instr.addRegReg .r1 .r3).wellFormed = false ∧
      (Instr.addRegReg .r2 .r1).wellFormed = true := by decide

/-- R63 bit strings `00010000 llllllll llllllll dddddddd` and so on, one word per instruction. -/
theorem test_decode_movLitReg :
    decode OpcodeMap.standard [0b00010000, 0b10101011, 0b11001101, 0b00001001] = .ok (.movLitReg 0xABCD .r8) [] := by
  decide

theorem test_decode_movRegReg :
    decode OpcodeMap.standard [0b00010001, 0b00000000, 0b00000001] = .ok (.movRegReg .ip .acc) [] := by decide

theorem test_decode_movRegMem :
    decode OpcodeMap.standard [0b00010010, 0b00000111, 0b00010010, 0b00110100] = .ok (.movRegMem .r6 0x1234) [] := by
  decide

theorem test_decode_movMemReg :
    decode OpcodeMap.standard [0b00010011, 0b00010010, 0b00110100, 0b00001000] = .ok (.movMemReg 0x1234 .r7) [] := by
  decide

theorem test_decode_addRegReg :
    decode OpcodeMap.standard [0b00010100, 0b00000011, 0b00000010] = .ok (.addRegReg .r2 .r1) [] := by decide

theorem test_decode_jmpNotEq :
    decode OpcodeMap.standard [0b00010101, 0b00000001, 0b00000010, 0b00000011, 0b00000100] =
      .ok (.jmpNotEq 0x0102 0x0304) [] := by decide

/-- A table word's first byte is its lowest eight bits; operand bytes the table gives no bits are 0. -/
theorem test_decodeTableWord :
    decodeTableWord 32 0x02010010 = some (.movLitReg 0x0001 .r1) ∧ decodeTableWord 8 0x14 = some (.addRegReg .ip .ip) ∧
      decodeTableWord 40 0x0800341215 = some (.jmpNotEq 0x1234 0x0008) ∧ decodeTableWord 8 0xFF = none := by decide

/-- The next step fetches and runs exactly the placed instruction, also where IP wraps past 0xFFFF. -/
theorem test_withFetchWord :
    (State.reset.withFetchWord 32 0x02010010).holdsAtIp (.movLitReg 0x0001 .r1) ∧
      nextIs (step (State.reset.withFetchWord 32 0x02010010)) (fun t => ok t 4 && t.reg .r1 == 1) = true ∧
      ((State.reset.setReg .ip 0xFFFF).withFetchWord 24 0x030211).holdsAtIp (.movRegReg .r1 .r2) := by decide

/-! ### One step: the engine -/

/-- E1: zeroed memory. -/
theorem test_E1 : nextIs (step State.reset) (fun t => faulted t .invalidOpcode 0 1 0 && t.started) = true := by decide

/-- E2: an instruction wrapped round the end of memory. -/
theorem test_E2 :
    nextIs (step ((codeAt 0x10000 0 [0x02, 0x03]).placeBytes [(0xFFFF, 0x11)] |>.setReg .r1 7 |>.setReg .ip 0xFFFF))
      (fun t => ok t 2 && t.reg .r2 == 7) = true := by decide

/-- E4: the fault state takes no step. -/
theorem test_E4 :
    nextIs (core.run 2 (code0 [0xFF])) (fun t => faulted t .invalidOpcode 0xFF 1 0) = true := by decide

/-- E5: a word fetch at the last byte. -/
theorem test_E5 :
    nextIs (step (codeAt 0x10 0x0E [0x10, 0x00])) (fun t => faulted t .outOfBoundsAddress 0x0F 0x0F 0x0E) = true := by
  decide

/-! ### One step: the instructions -/

/-- M2: a literal moved to IP. -/
theorem test_M2 : nextIs (step (code0 [0x10, 0x00, 0x40, 0x00])) (ok · 0x40) = true := by decide

/-- M5: the destination fetch out of bounds. -/
theorem test_M5 :
    nextIs (step (codeAt 0x10 0x0D [0x10, 0x00, 0x05])) (fun t => faulted t .outOfBoundsAddress 0x10 0x10 0x0D) = true := by
  decide

/-- RR3: a source of IP reads the next instruction's address. -/
theorem test_RR3 :
    nextIs (step (codeAt 65536 0x100 [0x11, 0x00, 0x02])) (fun t => ok t 0x103 && t.reg .r1 == 0x103) = true := by decide

/-- RR5: the source id is reported first. -/
theorem test_RR5 :
    nextIs (step (code0 [0x11, 0x0A, 0xFF])) (fun t => faulted t .invalidRegisterId 0x0A 2 0) = true := by decide

/-- RM1: byte order and the WRITE_EVENT. -/
theorem test_RM1 :
    nextIs (step ((code0 [0x12, 0x02, 0x01, 0x00]).setReg .r1 0xABCD))
      (fun t => ok t 4 && t.byte 0x100 == 0xAB && t.byte 0x101 == 0xCD && t.writeEvents == [⟨0x100, 0xABCD⟩]) = true := by
  decide

/-- RM8: a memory above 65536 bytes, written at 0xFFFF and 0x10000. -/
theorem test_RM8 :
    nextIs (step ((codeAt 0x20000 0 [0x12, 0x02, 0xFF, 0xFF]).setReg .r1 0xA1B2))
      (fun t => ok t 4 && t.byte 0xFFFF == 0xA1 && t.byte 0x10000 == 0xB2 && t.byte 0 == 0x12) = true := by decide

/-- MR5: the register id is checked before the data access. -/
theorem test_MR5 :
    nextIs (step (codeAt 0x100 0 [0x13, 0xFF, 0xFF, 0x0A])) (fun t => faulted t .invalidRegisterId 0x0A 4 0) = true := by
  decide

/-- MR6: a load of the instruction's own bytes. -/
theorem test_MR6 :
    nextIs (step (code0 [0x13, 0x00, 0x00, 0x02])) (fun t => ok t 4 && t.reg .r1 == 0x1300) = true := by decide

/-- A2: the sum wraps. -/
theorem test_A2 :
    nextIs (step ((code0 [0x14, 0x02, 0x03]).setReg .r1 0xFFFF |>.setReg .r2 1)) (fun t => ok t 3 && t.reg .acc == 0) = true := by
  decide

/-- A8: op1 unsupported comes before op2 invalid. -/
theorem test_A8 :
    nextIs (step (code0 [0x14, 0x00, 0xFF])) (fun t => faulted t .unsupportedOperand 0 2 0) = true := by decide

/-- W5, W6: taken and not taken. -/
theorem test_W5_W6 :
    nextIs (step ((code0 [0x15, 0x12, 0x34, 0x00, 0x08]).setReg .acc 1)) (ok · 8) = true ∧
      nextIs (step ((code0 [0x15, 0x12, 0x34, 0x00, 0x08]).setReg .acc 0x1234)) (ok · 5) = true := by decide

/-- J6: the target fetch out of bounds. -/
theorem test_J6 :
    nextIs (step (codeAt 8 4 [0x15, 0x00, 0x01, 0x00])) (fun t => faulted t .outOfBoundsAddress 7 7 4) = true := by decide

/-! ### Boot -/

/-- B2, B3, B5: a load after the first step, a load outside memory, a preset IP. -/
theorem test_boot :
    (State.reset.begin.loadMem 0 0x10).1 = .refused ∧
      ((State.resetOf ⟨0x100, OpcodeMap.standard⟩).loadMem 0x100 0x55) =
        (.loadOutOfBounds 0x100, State.resetOf ⟨0x100, OpcodeMap.standard⟩) ∧
      nextIs (step ((State.reset.loadReg .ip 0x40).2.loadMem 0x40 0xFF).2)
        (fun t => faulted t .invalidOpcode 0xFF 0x41 0x40) = true := by decide

/-! ### Witnesses: the hypotheses of each statement can be met -/

/-- The state after W8: an illegal opcode has faulted. -/
def afterW8 : State := (((code0 [0xFF]).begin).setReg .ip 1).enterFault .invalidOpcode 0xFF 0

theorem witness_DecodeInvertsEncode : OpcodeMap.standard.legal := by decide

theorem witness_legal_other : OpcodeMap.legal ⟨0x00, 0x01, 0x02, 0xFE, 0x80, 0x7F⟩ := by decide

theorem witness_DecodedBytesAreTheEncoding :
    decode OpcodeMap.standard [0x15, 0xFF, 0xFF, 0x00, 0x00, 0x99] = .ok (.jmpNotEq 0xFFFF 0) [0x99] := by decide

theorem witness_IllegalOpcodesAreRejected :
    (0x0F : Byte) ∉ OpcodeMap.standard.codes ∧ (0x16 : Byte) ∉ OpcodeMap.standard.codes ∧ OpcodeMap.standard.legal := by
  decide

theorem witness_RegisterFieldsGoThroughOneMap :
    OpcodeMap.standard.legal ∧ 0x0A ≤ (0x0A : Byte).toNat ∧ RegName.ofId 0x09 = some .r8 ∧ RegName.ofId 0x0A = none := by
  decide

/-- Both clauses, at the last word of memory and one past it. -/
theorem witness_WordWriteThenRead :
    State.reset.mem.wf ∧ 65534 + 1 < State.reset.cfg.memSize ∧ State.reset.cfg.memSize ≤ 65535 + 1 := by decide

theorem witness_MemoryIsItsBytes :
    Memory.wf [(0, 1), (70000, 2)] ∧ ∀ a, Memory.get [(0, 1), (70000, 2)] a = Memory.get [(0, 1), (70000, 2)] a :=
  ⟨by decide, fun _ => rfl⟩

/-- Both clauses, at MEM_SIZE = 0x10000 with IP = 0xFFFF and at 0x10001. -/
theorem witness_WordAccessAtTopNeverWraps :
    (State.reset.setReg .ip 0xFFFF).cfg.memSize ≤ 0x10000 ∧ (State.reset.setReg .ip 0xFFFF).reg .ip = 0xFFFF ∧
      0x10000 < (codeAt 0x10001 0xFFFF [1, 2]).cfg.memSize ∧ (codeAt 0x10001 0xFFFF [1, 2]).mem.wf ∧
      (codeAt 0x10001 0xFFFF [1, 2]).reg .ip = 0xFFFF := by decide

/-- The last word of 65536 bytes; and 0xFFFF, whose second byte lies above 16 bits, in 65537. -/
theorem witness_FetchSeesTheStoredWord :
    ((code0 [0x12]).mem.wf ∧ (0xFFFE : Word).toNat + 1 < (code0 [0x12]).cfg.memSize ∧ (0xFFFE : Word) ≠ 0xFFFF ∧
      ∃ t, exec (.movRegMem .r1 0xFFFE) (code0 [0x12]) = .next t) ∧
    ((codeAt 0x10001 0 [0x12]).mem.wf ∧ (0xFFFF : Word).toNat + 1 < (codeAt 0x10001 0 [0x12]).cfg.memSize ∧
      ∃ t, exec (.movRegMem .ip 0xFFFF) (codeAt 0x10001 0 [0x12]) = .next t) :=
  ⟨⟨by decide, by decide, by decide, _, rfl⟩, by decide, by decide, _, rfl⟩

theorem witness_MovRegMemResult :
    (code0 [0x12]).mem.wf ∧ (0xFFFE : Word).toNat + 1 < (code0 [0x12]).cfg.memSize := by decide

theorem witness_MovMemRegResult : (0xFFFE : Word).toNat + 1 < State.reset.cfg.memSize := by decide

theorem witness_DataAccessOutsideMemoryFaults : State.reset.cfg.memSize ≤ (0xFFFF : Word).toNat + 1 := by decide

theorem witness_AddRegRegResult : (Instr.addRegReg .r2 .r2).wellFormed = true := by decide

/-- Both branches: op1 unsupported; op1 supported and op2 not. -/
theorem witness_AddRegRegUnsupportedOperand :
    (Instr.addRegReg .ip .r1).wellFormed = false ∧ (Instr.addRegReg .r2 .r8).wellFormed = false := by decide

theorem witness_StepRunsTheFetchedInstruction :
    (code0 [0x11, 0x02, 0x03]).status.state = .running ∧
      ∃ rest, (code0 [0x11, 0x02, 0x03]).begin.fetchInstr = .ok (.movRegReg .r1 .r2) rest := ⟨rfl, _, rfl⟩

theorem witness_StepRunsTheEncodedInstruction :
    (code0 [0x14, 0x02, 0x03]).status.state = .running ∧ (code0 [0x14, 0x02, 0x03]).cfg.opcodes.legal ∧
      (code0 [0x14, 0x02, 0x03]).holdsAtIp (.addRegReg .r1 .r2) := by decide

theorem witness_OpcodeFetchOutsideMemoryFaults :
    (codeAt 0x100 0x100 []).status.state = .running ∧
      (codeAt 0x100 0x100 []).cfg.memSize ≤ ((codeAt 0x100 0x100 []).reg .ip).toNat := by decide

theorem witness_InvalidOpcodeFaults :
    (codeAt 0x100 0xFF [0x16]).status.state = .running ∧
      ((codeAt 0x100 0xFF [0x16]).reg .ip).toNat < (codeAt 0x100 0xFF [0x16]).cfg.memSize ∧
      (codeAt 0x100 0xFF [0x16]).byte ((codeAt 0x100 0xFF [0x16]).reg .ip).toNat ∉
        (codeAt 0x100 0xFF [0x16]).cfg.opcodes.codes := by decide

/-- The hypotheses of the six statements `<Instruction>Step`, for one opcode byte. -/
abbrev StepHypotheses (s : State) (opcode : Byte) : Prop :=
  s.status.state = .running ∧ s.cfg.opcodes.legal ∧ (s.reg .ip).toNat < s.cfg.memSize ∧
    s.byte (s.reg .ip).toNat = opcode

theorem witness_MovLitRegStep : StepHypotheses (code0 [0x10, 0x12, 0x34, 0x09]) OpcodeMap.standard.movLitReg := by decide

theorem witness_MovRegRegStep : StepHypotheses (code0 [0x11, 0x02, 0x09]) OpcodeMap.standard.movRegReg := by decide

theorem witness_MovRegMemStep : StepHypotheses (code0 [0x12, 0x02, 0x01, 0x00]) OpcodeMap.standard.movRegMem := by decide

theorem witness_MovMemRegStep : StepHypotheses (code0 [0x13, 0x01, 0x00, 0x05]) OpcodeMap.standard.movMemReg := by decide

theorem witness_AddRegRegStep : StepHypotheses (code0 [0x14, 0x02, 0x03]) OpcodeMap.standard.addRegReg := by decide

theorem witness_JmpNotEqStep : StepHypotheses (code0 [0x15, 0x00, 0x01, 0x00, 0x40]) OpcodeMap.standard.jmpNotEq := by
  decide

/-- Both clauses, and both alternatives of the second. -/
theorem witness_StepCompletesOrFaults :
    afterW8.status.state = .faulted ∧ State.reset.status.state = .running ∧
      (code0 [0x10, 0x12, 0x34, 0x09]).status.state = .running := by decide

theorem witness_JumpOutsideMemoryFaultsOnTheNextStep :
    (codeAt 0x100 0 [0x15, 0x00, 0x01, 0x01, 0x00]).status.state = .running ∧
      (codeAt 0x100 0 [0x15, 0x00, 0x01, 0x01, 0x00]).cfg.opcodes.legal ∧
      (codeAt 0x100 0 [0x15, 0x00, 0x01, 0x01, 0x00]).holdsAtIp (.jmpNotEq 1 0x100) ∧
      (1 : Word) ≠ (codeAt 0x100 0 [0x15, 0x00, 0x01, 0x01, 0x00]).reg .acc ∧
      (codeAt 0x100 0 [0x15, 0x00, 0x01, 0x01, 0x00]).cfg.memSize ≤ (0x100 : Word).toNat := by decide

/-- J5. -/
theorem witness_JumpToItselfRunsForever :
    (codeAt 65536 0x10 [0x15, 0x00, 0x01, 0x00, 0x10]).status.state = .running ∧
      (codeAt 65536 0x10 [0x15, 0x00, 0x01, 0x00, 0x10]).cfg.opcodes.legal ∧
      (codeAt 65536 0x10 [0x15, 0x00, 0x01, 0x00, 0x10]).holdsAtIp
        (.jmpNotEq 1 ((codeAt 65536 0x10 [0x15, 0x00, 0x01, 0x00, 0x10]).reg .ip)) ∧
      (1 : Word) ≠ (codeAt 65536 0x10 [0x15, 0x00, 0x01, 0x00, 0x10]).reg .acc := by decide

/-- Each clause: a rejected fetch; a data access outside memory (IP + 4); ADD_REG_REG's first and second operand (vector A8,
and its mirror). -/
theorem witness_FaultLeavesOnlyIpAndStatus :
    (State.reset.status.state = .running ∧ (∃ r u, State.reset.begin.fetchInstr = .reject r u) ∧
      nextIs (step State.reset) (faulted · .invalidOpcode 0 1 0) = true) ∧
      nextIs (step (code0 [0x12, 0x02, 0xFF, 0xFF])) (faulted · .outOfBoundsAddress 0xFFFF 4 0) = true ∧
      nextIs (step (code0 [0x14, 0x00, 0x03])) (faulted · .unsupportedOperand 0 2 0) = true ∧
      nextIs (step (code0 [0x14, 0x02, 0x00])) (faulted · .unsupportedOperand 0 3 0) = true :=
  ⟨⟨rfl, ⟨_, _, rfl⟩, by decide⟩, by decide, by decide, by decide⟩

/-- Each clause: IP outside memory; no opcode; JMP_NOT_EQ; ADD_REG_REG. -/
theorem witness_FaultKindsByInstruction :
    (∃ t, step (codeAt 0x100 0x100 []) = .next t ∧ t.status.kind = some .outOfBoundsAddress ∧ t.status.state = .faulted) ∧
      (∃ t, step (code0 [0x16]) = .next t ∧ t.status.kind = some .invalidOpcode ∧ t.status.state = .faulted) ∧
      (∃ t, step (codeAt 8 4 [0x15, 0, 1, 0]) = .next t ∧ t.status.kind = some .outOfBoundsAddress ∧
        t.status.state = .faulted) ∧
      ∃ t, step (code0 [0x14, 0, 0xFF]) = .next t ∧ t.status.kind = some .unsupportedOperand ∧
        t.status.state = .faulted :=
  ⟨⟨_, rfl, rfl, rfl⟩, ⟨_, rfl, rfl, rfl⟩, ⟨_, rfl, rfl, rfl⟩, _, rfl, rfl, rfl⟩

theorem witness_FaultStateIsLeftOnlyByReset :
    afterW8.status.state = .faulted ∧ transact afterW8 .step = .next (.fault .invalidOpcode 0xFF, afterW8) ∧
      transact afterW8 .snapshot = .next (.snapshot afterW8.snapshot, afterW8) := ⟨rfl, rfl, rfl⟩

/-- The invariant in a running and in a faulted state. -/
theorem witness_Inv : (code0 [0x12, 0x02, 0x01, 0x00]).Inv ∧ afterW8.Inv ∧ afterW8.status.code = 2 := by decide

theorem witness_StepKeepsInv :
    (code0 [0x12, 0x02, 0x01, 0x00]).Inv ∧ ∃ t, step (code0 [0x12, 0x02, 0x01, 0x00]) = .next t :=
  ⟨by decide, _, rfl⟩

/-- Each clause: RESET of a loaded memory, LOAD_MEM, a store. -/
theorem witness_MemoryChangesOnlyByStoreOrLoad :
    ((code0 [0x12, 0x02, 0x01, 0x00]).setReg .r1 1).mem.wf ∧
      (∃ r t, transact (code0 [0x12]) .reset = .next (r, t) ∧ t.byte 0 ≠ (code0 [0x12]).byte 0) ∧
      (∃ r t, transact State.reset (.loadMem 0xFFFF 1) = .next (r, t) ∧ t.byte 0xFFFF ≠ State.reset.byte 0xFFFF) ∧
      ∃ r t, transact ((code0 [0x12, 0x02, 0x01, 0x00]).setReg .r1 1) .step = .next (r, t) ∧
        t.byte 0x101 ≠ ((code0 [0x12, 0x02, 0x01, 0x00]).setReg .r1 1).byte 0x101 :=
  ⟨by decide, ⟨_, _, rfl, by decide⟩, ⟨_, _, rfl, by decide⟩, _, _, rfl, by decide⟩

/-- A move and the addition. -/
theorem witness_RegistersChangeOnlyAsDestinations :
    (∃ t, step (code0 [0x10, 0x12, 0x34, 0x09]) = .next t ∧ t.reg .r8 ≠ (code0 [0x10, 0x12, 0x34, 0x09]).reg .r8) ∧
      ∃ t, step ((code0 [0x14, 0x02, 0x03]).setReg .r1 5) = .next t ∧
        t.reg .acc ≠ ((code0 [0x14, 0x02, 0x03]).setReg .r1 5).reg .acc :=
  ⟨⟨_, rfl, by decide⟩, _, rfl, by decide⟩

/-- A store inside memory; and one outside it, for which the second clause's hypothesis holds. -/
theorem witness_OneWriteEventPerCompletedStore :
    (code0 [0x12, 0x02, 0xFF, 0xFE]).mem.wf ∧
      (∃ rest, (code0 [0x12, 0x02, 0xFF, 0xFE]).begin.fetchInstr = .ok (.movRegMem .r1 0xFFFE) rest) ∧
      (∃ rest, (code0 [0x12, 0x02, 0xFF, 0xFF]).begin.fetchInstr = .ok (.movRegMem .r1 0xFFFF) rest ∧
        (code0 [0x12, 0x02, 0xFF, 0xFF]).cfg.memSize ≤ (0xFFFF : Word).toNat + 1) :=
  ⟨by decide, ⟨_, rfl⟩, _, rfl, by decide⟩

theorem witness_StatusAndStartedAreNeverRead :
    State.reset.status.state = .running ∧ (⟨.running, some .invalidOpcode, 7, 9⟩ : Status).state = .running := by decide

theorem witness_UnwrittenRegistersReadZero : RegName.ip ≠ RegName.r1 := by decide

/-- Each clause, with the last address of memory and the first outside it. -/
theorem witness_LoadsWorkInTheBootPhaseOnly :
    State.reset.mem.wf ∧ State.reset.begin.started = true ∧ State.reset.started = false ∧
      State.reset.cfg.memSize ≤ 65536 ∧ 65535 < State.reset.cfg.memSize := by decide

/-- Each clause: a step, a load, a step in the fault state. -/
theorem witness_StartedStaysUntilReset :
    (∃ r t, transact State.reset .step = .next (r, t)) ∧ (∃ r t, transact State.reset (.loadReg .r1 1) = .next (r, t)) ∧
      afterW8.started = true ∧ ∃ r t, transact afterW8 .step = .next (r, t) :=
  ⟨⟨_, _, rfl⟩, ⟨_, _, rfl⟩, rfl, _, _, rfl⟩

end Sys2Proof.Tests
end

/-! PROOFS of the family 10_state.md: memory is its bytes (R31), fetch sees what a store wrote (R30), registers after reset
(R24), and the invariant that every step keeps (R27, R31, R32). -/

namespace Sys2Proof.Machine

/-! ### Every step keeps the invariant -/

/-- Registers are no part of the invariant. -/
theorem State.Inv.setReg {s : State} (h : s.Inv) (r : RegName) (v : Word) : (s.setReg r v).Inv := h

/-- IP is no part of the invariant. -/
theorem State.Inv.advance {s : State} (h : s.Inv) (n : Nat) : (s.advance n).Inv := h.setReg _ _

/-- Accepting a step keeps the invariant: its two clauses on `started` ask less once `started` is set (10_state.md R32). -/
theorem State.Inv.begin {s : State} (h : s.Inv) : s.begin.Inv := by
  obtain ⟨hcfg, hwf, hmem, hstatus, -, -, hevents⟩ := h
  exact ⟨hcfg, hwf, hmem, hstatus, fun _ => rfl, nofun, hevents⟩

/-- Latching a fault with an info its kind can have keeps the invariant of a core whose first step was accepted
(60_exceptions.md R142, R143). -/
theorem State.Inv.enterFault {s : State} (h : s.Inv) (hs : s.started = true) {k : Fault} {info : Word}
    (hk : k.infoOk s.cfg info = true) (start : Word) : (s.enterFault k info start).Inv := by
  obtain ⟨hcfg, hwf, hmem, -, -, hboot, hevents⟩ := h
  exact ⟨hcfg, hwf, hmem, hk, fun _ => hs, hboot, hevents⟩

/-- A word write adds entries at its two addresses only, both inside memory (20_memory.md R45). -/
theorem State.memWrite16_inside {s t : State} {a : Nat} {v : Word} (hmem : ∀ c ∈ s.mem, c.1 < s.cfg.memSize)
    (h : s.memWrite16 a v = some t) : ∀ c ∈ t.mem, c.1 < s.cfg.memSize := by
  obtain ⟨ha, rfl⟩ := State.memWrite16_eq_some.1 h
  intro c hc
  rcases Memory.mem_set hc with hc | ⟨rfl, -⟩
  · rcases Memory.mem_set hc with hc | ⟨rfl, -⟩
    · exact hmem c hc
    · exact Nat.lt_of_succ_lt ha
  · exact ha

/-- A completed store and its output keep the invariant of a core whose first step was accepted (20_memory.md R45, R48). -/
theorem State.Inv.store {s t : State} (h : s.Inv) (hs : s.started = true) {addr v : Word}
    (ht : s.memWrite16 addr.toNat v = some t) : (t.emit addr v).Inv := by
  obtain ⟨hcfg, hwf, hmem, hstatus, hfaulted, -, hevents⟩ := h
  have hwf' := State.memWrite16_wf hwf ht
  have hmem' := State.memWrite16_inside hmem ht
  obtain ⟨ha, rfl⟩ := State.memWrite16_eq_some.1 ht
  refine ⟨hcfg, hwf', hmem', hstatus, hfaulted, fun hboot => ?_, fun e he => ?_⟩
  · exact absurd (hs.symm.trans hboot) nofun
  · rcases List.mem_append.1 he with he | he
    · exact hevents e he
    · obtain rfl := List.mem_singleton.1 he
      exact ha

/-- Every meaning keeps the invariant of a core whose first step was accepted. -/
theorem exec_keeps_inv {i : Instr} {s t : State} (h : s.Inv) (hs : s.started = true) (he : exec i s = .next t) :
    t.Inv := by
  obtain ⟨n, -, ⟨r, v, hn⟩ | hn | ⟨src, addr, u, -, hu, hn⟩ | ⟨k, info, hk, hn⟩⟩ := exec_cases i s <;>
    obtain rfl := Host.Outcome.next.inj (he.symm.trans hn)
  · exact (h.advance n).setReg r v
  · exact h.advance n
  · exact (h.advance n).store hs hu
  · exact (h.advance n).enterFault hs hk _

/-- Settles O37: of the three things a step can do, the fault state changes nothing, and the other two start from `s.begin`
and are an instruction's meaning or the latching of its fetch's fault. -/
theorem stepKeepsInv : Obligations.StepKeepsInv := by
  intro s t h ht
  obtain ⟨-, rfl⟩ | ⟨-, i, -, he⟩ | ⟨-, r, u, n, k, info, -, -, hk, rfl⟩ := step_cases ht
  · exact h
  · exact exec_keeps_inv h.begin rfl he
  · exact (h.begin.advance n).enterFault rfl hk _

/-! ### Memory is the map from addresses to bytes -/

/-- In a canonical memory an entry is a nonzero byte and the address it is read from (10_state.md R31, R34). -/
theorem Memory.mem_iff_get {m : Memory} (h : m.wf) (c : Host.Cell) : c ∈ m ↔ c.2 ≠ 0 ∧ m.get c.1 = c.2 := by
  obtain ⟨hp, hz⟩ := h
  induction m with
  | nil => exact ⟨nofun, fun ⟨hc, hget⟩ => absurd hget.symm hc⟩
  | cons d m ih =>
    obtain ⟨hd, hm⟩ := List.pairwise_cons.1 hp
    have ih := ih hm fun e he => hz e (List.mem_cons_of_mem d he)
    simp only [Memory.get, List.mem_cons]
    by_cases hc : d.1 = c.1
    · have hcm : c ∉ m := fun hmem => absurd (hd c hmem) (by omega)
      have hd0 := hz d List.mem_cons_self
      simp only [hc, hcm, if_true, or_false]
      exact ⟨by rintro rfl; exact ⟨hd0, rfl⟩, fun ⟨_, hcd⟩ => Prod.ext hc.symm hcd.symm⟩
    · have hcd : c ≠ d := fun h => hc (h ▸ rfl)
      simp only [hc, hcd, if_false, false_or, ih]

/-- Settles O7: two canonical memories that read alike have the same entries, both in rising order. -/
theorem memoryIsItsBytes : Obligations.MemoryIsItsBytes := by
  intro m n hm hn h
  refine List.Pairwise.eq_of_mem_iff hm.1 hn.1 fun c => ?_
  rw [Memory.mem_iff_get hm, Memory.mem_iff_get hn, h]

/-! ### Fetch sees what a store wrote -/

/-- A byte fetch with IP set to an address inside memory reads the byte there (40_engine.md R80). -/
theorem State.fetch8_setReg_ip {s : State} {a : Word} (h : a.toNat < s.cfg.memSize) :
    ∃ u, (s.setReg .ip a).fetch8 = some (s.byte a.toNat, u) :=
  ⟨_, State.fetch8_eq_some.2 ⟨by simpa using h, by simp, rfl⟩⟩

/-- A word fetch with IP set to an address whose word is inside memory reads the word there (40_engine.md R81). -/
theorem State.fetch16_setReg_ip {s : State} {a : Word} (h : a.toNat + 1 < s.cfg.memSize) :
    ∃ u, (s.setReg .ip a).fetch16 = some (wordOfBytes (s.byte a.toNat) (s.byte (a.toNat + 1)), u) :=
  ⟨_, State.fetch16_eq_some.2 ⟨by simpa using h, by simp, rfl⟩⟩

/-- The address after any but the last does not wrap (20_memory.md R50). -/
theorem toNat_add_one_of_ne_last {a : Word} (h : a ≠ 0xFFFF) : (a + 1).toNat = a.toNat + 1 := by
  bv_omega

/-- Settles O9: by the bytes a store leaves (R45, R47), the fetches from its address read the stored word and its bytes. -/
theorem fetchSeesTheStoredWord : Obligations.FetchSeesTheStoredWord := by
  intro s t src addr hwf hin hexec
  obtain rfl := Host.Outcome.next.inj ((exec_movRegMem_inside src hin).symm.trans hexec)
  have hhi : (s.afterStore src addr).byte addr.toNat = wordHi ((s.advance 4).reg src) := by
    simp [State.afterStore_byte hwf]
  have hlo : (s.afterStore src addr).byte (addr.toNat + 1) = wordLo ((s.advance 4).reg src) := by
    simp [State.afterStore_byte hwf]
  have hin' : addr.toNat + 1 < (s.afterStore src addr).cfg.memSize := hin
  refine ⟨?_, ?_, fun hlast => ?_⟩
  · simpa only [hhi, hlo, wordOfBytes_hi_lo] using State.fetch16_setReg_ip hin'
  · simpa only [hhi] using State.fetch8_setReg_ip (Nat.lt_of_succ_lt hin')
  · have hnext := toNat_add_one_of_ne_last hlast
    have hfetch := State.fetch8_setReg_ip (hnext ▸ hin')
    rw [hnext, hlo] at hfetch
    exact hfetch

/-! ### Registers after reset -/

/-- Every register is 0 after RESET (10_state.md R34). -/
@[simp] theorem State.resetOf_reg (c : Config) (r : RegName) : (State.resetOf c).reg r = 0 := by
  cases r <;> rfl

/-- In the boot phase LOAD_REG presets its register and is answered (70_reset_and_hazards.md R164). -/
theorem transact_loadReg_boot {s : State} (h : s.started = false) (r : RegName) (v : Word) :
    transact s (.loadReg r v) = .next (.done, s.setReg r v) := by
  simp [transact, State.loadReg, h]

/-- Settles O44: reset clears every register, and LOAD_REG writes the one it names only. -/
theorem unwrittenRegistersReadZero : Obligations.UnwrittenRegistersReadZero := fun c q =>
  ⟨State.resetOf_reg c q, fun r v hq => ⟨_, transact_loadReg_boot rfl r v, by simp [hq], by simp⟩⟩

end Sys2Proof.Machine

/-! PROOFS of the family 20_memory.md: a word written is read back (R44, R45), memory changes only by a load of the host, a
store or RESET (R46), and a load of a word changes its destination and IP only (41_data_movement.md R103). -/

namespace Sys2Proof.Machine

/-! ### A word write and what it changes -/

/-- A word write changes the bytes at its two addresses only (20_memory.md R45). -/
theorem State.byte_of_memWrite16_ne {s t : State} {a k : Nat} {v : Word} (hwf : s.mem.wf)
    (h : s.memWrite16 a v = some t) (h0 : k ≠ a) (h1 : k ≠ a + 1) : t.byte k = s.byte k := by
  rw [State.byte_of_memWrite16 hwf h, if_neg h1, if_neg h0]

/-- After a word write its high byte stands at the address and its low byte at the next (20_memory.md R45, R47). -/
theorem State.bytes_of_memWrite16 {s t : State} {a : Nat} {v : Word} (hwf : s.mem.wf)
    (h : s.memWrite16 a v = some t) : t.byte a = wordHi v ∧ t.byte (a + 1) = wordLo v := by
  simp [State.byte_of_memWrite16 hwf h]

/-- A word written is read back (20_memory.md R44, R45). -/
theorem State.memRead16_of_memWrite16 {s t : State} {a : Nat} {v : Word} (hwf : s.mem.wf)
    (h : s.memWrite16 a v = some t) : t.memRead16 a = some v := by
  obtain ⟨hhi, hlo⟩ := State.bytes_of_memWrite16 hwf h
  obtain ⟨hin, rfl⟩ := State.memWrite16_eq_some.1 h
  exact State.memRead16_eq_some.2 ⟨hin, by rw [hhi, hlo, wordOfBytes_hi_lo]⟩

/-- Settles O6: inside memory both accesses answer, and the written state is `s` with another memory, whose bytes are known;
outside, both primitives answer none. -/
theorem wordWriteThenRead : Obligations.WordWriteThenRead := by
  intro s a v hwf
  refine ⟨fun hin => ⟨State.memRead16_eq_some.2 ⟨hin, rfl⟩, ?_⟩,
    fun hout => ⟨State.memWrite16_eq_none.2 hout, State.memRead16_eq_none.2 hout⟩⟩
  have ht := State.memWrite16_eq_some (v := v).2 ⟨hin, rfl⟩
  obtain ⟨hhi, hlo⟩ := State.bytes_of_memWrite16 hwf ht
  exact ⟨_, ht, State.memRead16_of_memWrite16 hwf ht, hhi, hlo, fun _ => State.byte_of_memWrite16_ne hwf ht,
    rfl, rfl, rfl, rfl, rfl⟩

/-! ### What can change a byte of memory -/

/-- A meaning changes a byte only as a store inside memory, at one of its two addresses (20_memory.md R45, R46). -/
theorem exec_changes_byte {i : Instr} {s t : State} {a : Nat} (hwf : s.mem.wf) (he : exec i s = .next t)
    (ha : t.byte a ≠ s.byte a) :
    ∃ src addr, i = .movRegMem src addr ∧ addr.toNat + 1 < s.cfg.memSize ∧ (a = addr.toNat ∨ a = addr.toNat + 1) := by
  obtain ⟨n, -, ⟨r, v, hn⟩ | hn | ⟨src, addr, u, hi, hu, hn⟩ | ⟨k, info, -, hn⟩⟩ := exec_cases i s <;>
    obtain rfl := Host.Outcome.next.inj (he.symm.trans hn)
  · exact absurd rfl ha
  · exact absurd rfl ha
  · obtain ⟨hin, -⟩ := State.memWrite16_eq_some.1 hu
    refine ⟨src, addr, hi, hin, ?_⟩
    by_contra hne
    obtain ⟨h0, h1⟩ := not_or.1 hne
    exact ha (State.byte_of_memWrite16_ne (s := s.advance n) (t := u) hwf hu h0 h1)
  · exact absurd rfl ha

/-- A step changes a byte only from RUNNING, by the meaning of the instruction it fetched (20_memory.md R46). -/
theorem step_changes_byte {s t : State} {a : Nat} (hwf : s.mem.wf) (h : step s = .next t) (ha : t.byte a ≠ s.byte a) :
    s.status.state = .running ∧ ∃ src addr rest, s.begin.fetchInstr = .ok (.movRegMem src addr) rest ∧
      addr.toNat + 1 < s.cfg.memSize ∧ (a = addr.toNat ∨ a = addr.toNat + 1) := by
  obtain ⟨-, rfl⟩ | ⟨hrun, i, hf, he⟩ | ⟨-, r, u, n, k, info, -, -, -, rfl⟩ := step_cases h
  · exact absurd rfl ha
  · obtain ⟨src, addr, rfl, hin, hadr⟩ := exec_changes_byte (s := s.begin) hwf he ha
    exact ⟨hrun, src, addr, _, hf, hin, hadr⟩
  · exact absurd rfl ha

/-- The bytes after a byte write to a canonical memory (20_memory.md R43). -/
theorem State.byte_of_memWrite8 {s t : State} {a : Nat} {v : Byte} (hwf : s.mem.wf) (h : s.memWrite8 a v = some t)
    (k : Nat) : t.byte k = if k = a then v else s.byte k := by
  obtain ⟨-, rfl⟩ := State.memWrite8_eq_some.1 h
  exact Memory.get_set hwf a k v

/-- LOAD_MEM leaves the state as it was, or is in the boot phase and writes its byte (70_reset_and_hazards.md R162,
R163). -/
theorem State.loadMem_cases (s : State) (addr : Nat) (v : Byte) :
    (s.loadMem addr v).2 = s ∨ (s.started = false ∧ s.memWrite8 addr v = some (s.loadMem addr v).2) := by
  unfold State.loadMem
  split
  · exact .inl rfl
  · next hboot =>
    split
    · exact .inl rfl
    · next t hw => exact .inr ⟨Bool.eq_false_iff.2 hboot, hw⟩

/-- LOAD_MEM changes a byte only in the boot phase, at its own address and to its own value (20_memory.md R43, R46). -/
theorem State.loadMem_changes_byte {s : State} {addr a : Nat} {v : Byte} (hwf : s.mem.wf)
    (ha : (s.loadMem addr v).2.byte a ≠ s.byte a) :
    s.started = false ∧ a = addr ∧ (s.loadMem addr v).2.byte a = v := by
  obtain hs | ⟨hboot, hw⟩ := s.loadMem_cases addr v
  · exact absurd (congrArg (·.byte a) hs) ha
  · have hbyte := State.byte_of_memWrite8 hwf hw a
    split at hbyte
    · next haddr => exact ⟨hboot, haddr, hbyte⟩
    · exact absurd hbyte ha

/-- LOAD_REG is no access to memory (70_reset_and_hazards.md R164). -/
@[simp] theorem State.loadReg_byte (s : State) (r : RegName) (v : Word) (a : Nat) :
    (s.loadReg r v).2.byte a = s.byte a := by
  unfold State.loadReg
  split <;> rfl

/-- The state after a STEP transaction is the step's (40_engine.md R82). -/
theorem step_of_stepReply {s t : State} {r : Reply} (h : s.stepReply = .next (r, t)) : step s = .next t := by
  unfold State.stepReply at h
  split at h
  · next u hu => cases h; exact hu
  · cases h
  · cases h

/-- Settles O39: transaction by transaction; SNAPSHOT and LOAD_REG touch no byte. -/
theorem memoryChangesOnlyByStoreOrLoad : Obligations.MemoryChangesOnlyByStoreOrLoad := by
  intro s t tr r a hwf h ha
  cases tr with
  | reset => exact .inl rfl
  | loadMem addr v =>
    obtain ⟨-, rfl⟩ := Prod.mk.inj (Host.Outcome.next.inj h)
    obtain ⟨hboot, rfl, hv⟩ := State.loadMem_changes_byte hwf ha
    exact .inr (.inl ⟨v, rfl, hboot, hv⟩)
  | loadReg q v =>
    obtain rfl : (s.loadReg q v).2 = t := congrArg Prod.snd (Host.Outcome.next.inj h)
    exact absurd (s.loadReg_byte q v a) ha
  | step => exact .inr (.inr ⟨rfl, step_changes_byte hwf (step_of_stepReply h) ha⟩)
  | snapshot =>
    cases h
    exact absurd rfl ha

/-! ### The load of a word -/

/-- Advancing IP and writing one register leaves everything else as it was (40_engine.md R87). -/
theorem State.keepsAllBut_advance_setReg (s : State) (n : Nat) (r : RegName) (v : Word) :
    s.keepsAllBut ((s.advance n).setReg r v) [.ip, r] := by
  refine ⟨fun q hq => ?_, fun _ => rfl, rfl, rfl, rfl, rfl⟩
  obtain ⟨hip, hr⟩ : q ≠ .ip ∧ q ≠ r := by simpa using hq
  rw [State.reg_setReg_ne _ _ hr, State.advance_reg_ne _ _ hip]

/-- Settles O13: the meaning inside memory advances IP by 4 and then writes the word to its destination. -/
theorem movMemRegResult : Obligations.MovMemRegResult := by
  intro s addr dest hin
  refine ⟨_, exec_movMemReg_inside dest hin, State.reg_setReg_same _ _ _, fun hip => ?_,
    s.keepsAllBut_advance_setReg 4 dest _⟩
  rw [State.reg_setReg_ne _ _ hip.symm, State.advance_ip]
  rfl

end Sys2Proof.Machine

/-! PROOFS of the family 30_encoding.md: which opcode bytes are rejected (R65, R66), and the one register-id map behind every
`reg8` field (R62). -/

namespace Sys2Proof

/-! ### Decoding the head of a list of bytes -/

/-- A word operand of a list is its first two bytes (30_encoding.md R61). -/
@[simp] theorem withWord_list (hi lo : Byte) (bytes : List Byte) (k : Word → List Byte → Decoded (List Byte)) :
    listSource.withWord (hi :: lo :: bytes) k = k (wordOfBytes hi lo) bytes := rfl

/-- A register operand of a list is the register its first byte names (30_encoding.md R62). -/
theorem withReg_list_of_some {b : Byte} {r : RegName} (h : RegName.ofId b = some r) (bytes : List Byte)
    (k : RegName → List Byte → Decoded (List Byte)) : listSource.withReg (b :: bytes) k = k r bytes := by
  simp [Source.withReg, listSource, listByte, h]

/-- A register operand is refused where the first byte names no register, whatever follows (40_engine.md R84). -/
theorem withReg_list_of_none {b : Byte} (h : RegName.ofId b = none) (bytes : List Byte)
    (k : RegName → List Byte → Decoded (List Byte)) :
    listSource.withReg (b :: bytes) k = .reject (.invalidRegisterId b) bytes := by
  simp [Source.withReg, listSource, listByte, h]

/-- The id of a register is read back as that register (30_encoding.md R62). -/
@[simp] theorem withReg_list_id (r : RegName) (bytes : List Byte) (k : RegName → List Byte → Decoded (List Byte)) :
    listSource.withReg (r.id :: bytes) k = k r bytes :=
  withReg_list_of_some (RegName.ofId_id r) bytes k

@[simp] theorem addRejectOrder_ok {σ : Type} (op1 : RegName) (atOp1 t : σ) (i : Instr) :
    addRejectOrder op1 atOp1 (.ok i t) = .ok i t := rfl

/-- Behind a supported first operand the second operand's reject stands (42_arithmetic.md R120). -/
theorem addRejectOrder_of_isAddOperand {σ : Type} {op1 : RegName} (h : op1.isAddOperand = true) (atOp1 : σ)
    (d : Decoded σ) : addRejectOrder op1 atOp1 d = d := by
  cases d <;> simp [addRejectOrder, h]

/-- A byte that selects a mnemonic leaves the operands to decode (40_engine.md R83). -/
theorem decode_of_lookup_some {op : OpcodeMap} {b : Byte} {m : Mnemonic} (h : op.lookup b = some m)
    (bytes : List Byte) : decode op (b :: bytes) = decodeOperands listSource bytes m := by
  simp [decode, decodeFrom, listSource, listByte, h]

/-- A byte that selects no mnemonic is rejected before any operand (40_engine.md R83). -/
theorem decode_of_lookup_none {op : OpcodeMap} {b : Byte} (h : op.lookup b = none) (bytes : List Byte) :
    decode op (b :: bytes) = .reject (.invalidOpcode b) bytes := by
  simp [decode, decodeFrom, listSource, listByte, h]

/-- Under a legal binding the opcode of a mnemonic leaves its own operands to decode (30_encoding.md R64). -/
theorem decode_code {op : OpcodeMap} (h : op.legal) (m : Mnemonic) (bytes : List Byte) :
    decode op (op.code m :: bytes) = decodeOperands listSource bytes m :=
  decode_of_lookup_some (OpcodeMap.lookup_code h m) bytes

/-! ### Illegal opcode bytes -/

theorem OpcodeMap.code_mem_codes (op : OpcodeMap) (m : Mnemonic) : op.code m ∈ op.codes := by
  cases m <;> simp [OpcodeMap.code, OpcodeMap.codes]

section
variable {σ : Type} {src : Source σ} {s t : σ} {b : Byte}

/-- Consuming a word operand raises no `InvalidOpcode` of its own. -/
theorem withWord_ne_invalidOpcode {k : Word → σ → Decoded σ} (hk : ∀ w u, k w u ≠ .reject (.invalidOpcode b) t) :
    src.withWord s k ≠ .reject (.invalidOpcode b) t := by
  unfold Source.withWord
  split
  · nofun
  · exact hk _ _

/-- Consuming a register operand raises no `InvalidOpcode` of its own. -/
theorem withReg_ne_invalidOpcode {k : RegName → σ → Decoded σ} (hk : ∀ r u, k r u ≠ .reject (.invalidOpcode b) t) :
    src.withReg s k ≠ .reject (.invalidOpcode b) t := by
  unfold Source.withReg
  split
  · nofun
  · split
    · nofun
    · exact hk _ _

/-- Ordering ADD_REG_REG's rejects makes no `InvalidOpcode` of another. -/
theorem addRejectOrder_ne_invalidOpcode {op1 : RegName} {atOp1 : σ} {d : Decoded σ}
    (hd : d ≠ .reject (.invalidOpcode b) t) : addRejectOrder op1 atOp1 d ≠ .reject (.invalidOpcode b) t := by
  unfold addRejectOrder
  split
  · nofun
  · split
    · exact hd
    · nofun

/-- Behind a legal opcode byte nothing is an `InvalidOpcode` (30_encoding.md R65, R66). -/
theorem decodeOperands_ne_invalidOpcode (m : Mnemonic) : decodeOperands src s m ≠ .reject (.invalidOpcode b) t := by
  cases m with
  | movLitReg => exact withWord_ne_invalidOpcode fun _ _ => withReg_ne_invalidOpcode nofun
  | movRegReg => exact withReg_ne_invalidOpcode fun _ _ => withReg_ne_invalidOpcode nofun
  | movRegMem => exact withReg_ne_invalidOpcode fun _ _ => withWord_ne_invalidOpcode nofun
  | movMemReg => exact withWord_ne_invalidOpcode fun _ _ => withReg_ne_invalidOpcode nofun
  | addRegReg =>
    exact withReg_ne_invalidOpcode fun _ _ => addRejectOrder_ne_invalidOpcode (withReg_ne_invalidOpcode nofun)
  | jmpNotEq => exact withWord_ne_invalidOpcode fun _ _ => withWord_ne_invalidOpcode nofun

end

/-- The six default opcode bytes are 0x10 to 0x15 (00_scope.md R7). -/
theorem OpcodeMap.mem_standard_codes {b : Byte} : b ∈ OpcodeMap.standard.codes ↔ 0x10 ≤ b.toNat ∧ b.toNat ≤ 0x15 := by
  simp only [OpcodeMap.codes, OpcodeMap.standard, List.mem_cons, List.not_mem_nil, or_false]
  bv_omega

/-- Settles O3: the opcode's lookup alone raises `InvalidOpcode`, and it answers none exactly off the six bytes. -/
theorem illegalOpcodesAreRejected : Obligations.IllegalOpcodesAreRejected := by
  have hreject (op : OpcodeMap) (b : Byte) (bytes : List Byte) (hb : b ∉ op.codes) :
      decode op (b :: bytes) = .reject (.invalidOpcode b) bytes :=
    decode_of_lookup_none (OpcodeMap.lookup_eq_none.2 hb) bytes
  refine ⟨hreject, fun op m bytes rest b => ?_, fun op bytes hop => hreject op 0xFF bytes hop.2, fun b => ?_⟩
  · cases hm : op.lookup (op.code m) with
    | none => exact absurd (op.code_mem_codes m) (OpcodeMap.lookup_eq_none.1 hm)
    | some m' =>
      rw [decode_of_lookup_some hm]
      exact decodeOperands_ne_invalidOpcode m'
  · rw [OpcodeMap.mem_standard_codes]
    omega

/-! ### Register fields -/

section
variable {op : OpcodeMap} (hop : op.legal) (bytes : List Byte)
include hop

/-- 41_data_movement.md R100: a word, then a register. -/
theorem decode_movLitReg : decode op (op.movLitReg :: bytes) =
    listSource.withWord bytes fun lit s => listSource.withReg s fun dest s => .ok (.movLitReg lit dest) s :=
  decode_code hop .movLitReg bytes

/-- 41_data_movement.md R101: two registers. -/
theorem decode_movRegReg : decode op (op.movRegReg :: bytes) =
    listSource.withReg bytes fun src s => listSource.withReg s fun dest s => .ok (.movRegReg src dest) s :=
  decode_code hop .movRegReg bytes

/-- 41_data_movement.md R102: a register, then a word. -/
theorem decode_movRegMem : decode op (op.movRegMem :: bytes) =
    listSource.withReg bytes fun src s => listSource.withWord s fun addr s => .ok (.movRegMem src addr) s :=
  decode_code hop .movRegMem bytes

/-- 41_data_movement.md R103: a word, then a register. -/
theorem decode_movMemReg : decode op (op.movMemReg :: bytes) =
    listSource.withWord bytes fun addr s => listSource.withReg s fun dest s => .ok (.movMemReg addr dest) s :=
  decode_code hop .movMemReg bytes

/-- 42_arithmetic.md R120: two registers, the first checked before the second. -/
theorem decode_addRegReg : decode op (op.addRegReg :: bytes) =
    listSource.withReg bytes fun op1 s =>
      addRejectOrder op1 s (listSource.withReg s fun op2 s => .ok (.addRegReg op1 op2) s) :=
  decode_code hop .addRegReg bytes

end

/-- Settles O4: each field's byte goes through `Source.withReg`, which asks the one map; a named register is passed on, and
a byte that names none is refused on the spot. -/
theorem registerFieldsGoThroughOneMap : Obligations.RegisterFieldsGoThroughOneMap := by
  refine ⟨by decide, fun b => RegName.ofId_eq_none.2, fun op hi lo b q hop => ?_⟩
  cases hb : RegName.ofId b with
  | some r =>
    simp [decode_movLitReg hop, decode_movRegReg hop, decode_movRegMem hop, decode_movMemReg hop,
      decode_addRegReg hop, withReg_list_of_some hb]
  | none =>
    have hrefused := withReg_list_of_none hb
    refine ⟨⟨[], ?_⟩, ⟨[], ?_⟩, ⟨[hi, lo], ?_⟩, ⟨[q.id], ?_⟩, ⟨[], ?_⟩, ⟨[q.id], ?_⟩, fun hq => ⟨[], ?_⟩⟩
    · rw [decode_movLitReg hop, withWord_list, hrefused]
    · rw [decode_movMemReg hop, withWord_list, hrefused]
    · rw [decode_movRegMem hop, hrefused]
    · rw [decode_movRegReg hop, hrefused]
    · rw [decode_movRegReg hop, withReg_list_id, hrefused]
    · rw [decode_addRegReg hop, hrefused]
    · have hsupported : q.isAddOperand = true := by simpa [RegName.isAddOperand] using hq
      rw [decode_addRegReg hop, withReg_list_id, addRejectOrder_of_isAddOperand hsupported, hrefused]

end Sys2Proof

/-! PROOFS of the family 40_engine.md: the step at an illegal opcode (R83), the step of an encoded instruction (R82, R83),
that a step completes or faults (R92, R95), and that the step is the spec's pseudocode (R80 to R84). -/

namespace Sys2Proof.Machine

/-! ### The step at an illegal opcode byte -/

/-- An opcode byte inside memory that is none of the six is rejected just behind it (40_engine.md R83). -/
theorem State.fetchInstr_of_illegal {s : State} (hin : (s.reg .ip).toNat < s.cfg.memSize)
    (hb : s.byte (s.reg .ip).toNat ∉ s.cfg.opcodes.codes) :
    s.fetchInstr = .reject (.invalidOpcode (s.byte (s.reg .ip).toNat)) (s.advance 1) := by
  simp [State.fetchInstr_eq, Nat.not_le.2 hin, OpcodeMap.lookup_eq_none.2 hb]

/-- Settles O22: the fetch is rejected just behind the opcode byte, and the step latches that reject. -/
theorem invalidOpcodeFaults : Obligations.InvalidOpcodeFaults := fun s hrun hin hb =>
  step_rejected hrun (State.fetchInstr_of_illegal (s := s.begin) hin hb)

/-! ### The step of an encoded instruction -/

/-- The bytes that fetches of these widths from IP read are inside memory and are these (20_memory.md R51). -/
def State.fetchesRead (s : State) (widths : List Nat) (bytes : List Byte) : Prop :=
  ∀ c ∈ (fetchAddresses (s.reg .ip) widths).zip bytes, c.1 < s.cfg.memSize ∧ s.byte c.1 = c.2

theorem State.holdsAtIp_iff_fetchesRead {s : State} {i : Instr} :
    s.holdsAtIp i ↔ s.fetchesRead i.mnemonic.fetchWidths (encode s.cfg.opcodes i) := Iff.rfl

/-- A byte fetch reads at IP, and the later fetches read from IP one on (40_engine.md R80). -/
theorem State.fetchesRead_byte {s : State} {ns : List Nat} {b : Byte} {bs : List Byte} :
    s.fetchesRead (1 :: ns) (b :: bs) ↔
      (s.reg .ip).toNat < s.cfg.memSize ∧ s.byte (s.reg .ip).toNat = b ∧ (s.advance 1).fetchesRead ns bs := by
  simp [State.fetchesRead, fetchAddresses, and_assoc]

/-- A word fetch reads at IP and the address after it, and the later fetches read from IP two on (40_engine.md R81). -/
theorem State.fetchesRead_word {s : State} {ns : List Nat} {hi lo : Byte} {bs : List Byte} :
    s.fetchesRead (2 :: ns) (hi :: lo :: bs) ↔
      ((s.reg .ip).toNat < s.cfg.memSize ∧ s.byte (s.reg .ip).toNat = hi) ∧
      ((s.reg .ip).toNat + 1 < s.cfg.memSize ∧ s.byte ((s.reg .ip).toNat + 1) = lo) ∧
      (s.advance 2).fetchesRead ns bs := by
  simp [State.fetchesRead, fetchAddresses, List.range_succ]

section
variable {s : State} {ns : List Nat} {bs : List Byte}

/-- A register's id at IP is decoded as that register, and the later bytes stay to be read. -/
theorem withReg_of_fetchesRead {r : RegName} (h : s.fetchesRead (1 :: ns) (r.id :: bs))
    (k : RegName → State → Decoded State) :
    memorySource.withReg s k = k r (s.advance 1) ∧ (s.advance 1).fetchesRead ns bs := by
  obtain ⟨hin, hb, hrest⟩ := State.fetchesRead_byte.1 h
  refine ⟨?_, hrest⟩
  simp [withReg_memory, Nat.not_le.2 hin, hb]

/-- A word's bytes at IP are decoded as that word, and the later bytes stay to be read. -/
theorem withWord_of_fetchesRead {w : Word} (h : s.fetchesRead (2 :: ns) (wordHi w :: wordLo w :: bs))
    (k : Word → State → Decoded State) :
    memorySource.withWord s k = k w (s.advance 2) ∧ (s.advance 2).fetchesRead ns bs := by
  obtain ⟨⟨-, hhi⟩, ⟨hin, hlo⟩, hrest⟩ := State.fetchesRead_word.1 h
  refine ⟨?_, hrest⟩
  simp [withWord_memory, Nat.not_le.2 hin, hhi, hlo]

end

/-- Where the operand fetches read an instruction's operand bytes, the operands are decoded to it (30_encoding.md R63). -/
theorem decodeOperands_of_fetchesRead {s : State} {i : Instr}
    (h : s.fetchesRead i.mnemonic.fetchWidths.tail i.operandBytes) :
    ∃ rest, decodeOperands memorySource s i.mnemonic = .ok i rest := by
  cases i with
  | movLitReg lit dest =>
    obtain ⟨hlit, h⟩ := withWord_of_fetchesRead h _
    exact ⟨_, hlit.trans (withReg_of_fetchesRead h _).1⟩
  | movRegReg src dest =>
    obtain ⟨hsrc, h⟩ := withReg_of_fetchesRead h _
    exact ⟨_, hsrc.trans (withReg_of_fetchesRead h _).1⟩
  | movRegMem src addr =>
    obtain ⟨hsrc, h⟩ := withReg_of_fetchesRead h _
    exact ⟨_, hsrc.trans (withWord_of_fetchesRead h _).1⟩
  | movMemReg addr dest =>
    obtain ⟨haddr, h⟩ := withWord_of_fetchesRead h _
    exact ⟨_, haddr.trans (withReg_of_fetchesRead h _).1⟩
  | addRegReg op1 op2 =>
    obtain ⟨hop1, h⟩ := withReg_of_fetchesRead h _
    exact ⟨_, hop1.trans (congrArg (addRejectOrder op1 _) (withReg_of_fetchesRead h _).1)⟩
  | jmpNotEq lit target =>
    obtain ⟨hlit, h⟩ := withWord_of_fetchesRead h _
    exact ⟨_, hlit.trans (withWord_of_fetchesRead h _).1⟩

/-- Under a legal binding, where the bytes at the fetch addresses encode an instruction, it is fetched (R83, R51). -/
theorem State.fetchInstr_of_holdsAtIp {s : State} {i : Instr} (hop : s.cfg.opcodes.legal) (h : s.holdsAtIp i) :
    ∃ rest, s.fetchInstr = .ok i rest := by
  have hwidths : i.mnemonic.fetchWidths = 1 :: i.mnemonic.fetchWidths.tail := by cases i <;> rfl
  rw [State.holdsAtIp_iff_fetchesRead, hwidths] at h
  obtain ⟨hin, hopcode, hoperands⟩ := State.fetchesRead_byte.1 h
  obtain ⟨rest, hrest⟩ := decodeOperands_of_fetchesRead hoperands
  exact ⟨rest, by simp [State.fetchInstr_eq, Nat.not_le.2 hin, hopcode, OpcodeMap.lookup_code hop, hrest]⟩

/-- What a fetch that started in `s` leads to: the meaning of the instruction it decoded, or the fault of its reject
(40_engine.md R82). -/
def State.afterFetch (s : State) : Decoded State → Host.Outcome State Fault Refusal
  | .ok i _ => exec i s
  | .reject r t => .next (t.raiseReject r (s.reg .ip))

/-- A RUNNING core accepts the step and then takes what the fetch leads to (40_engine.md R82). -/
theorem step_running {s : State} (h : s.status.state = .running) : step s = s.begin.afterFetch s.begin.fetchInstr := by
  unfold step
  rw [h]
  cases s.begin.fetchInstr <;> rfl

/-- Settles O19: the instruction is fetched from its bytes, and the step is then its meaning. -/
theorem stepRunsTheEncodedInstruction : Obligations.StepRunsTheEncodedInstruction := by
  intro s i hrun hop h
  obtain ⟨rest, hfetch⟩ := State.fetchInstr_of_holdsAtIp (s := s.begin) hop h
  rw [step_running hrun, hfetch, State.afterFetch]

/-! ### A step completes or faults -/

/-- Every step answers a next state (40_engine.md R95). -/
theorem step_next (s : State) : ∃ t, step s = .next t := by
  cases hs : s.status.state with
  | faulted => exact ⟨s, step_faulted hs⟩
  | running =>
    rw [step_running hs]
    cases s.begin.fetchInstr with
    | ok i rest => exact exec_next i s.begin
    | reject r t => exact ⟨_, rfl⟩

/-- A meaning leaves STATUS alone or latches one fault of its own instruction (40_engine.md R87, R88). -/
theorem exec_status {i : Instr} {s t : State} (h : exec i s = .next t) :
    t.status = s.status ∨ ∃ k info, t.status = ⟨.faulted, some k, info, s.reg .ip⟩ := by
  obtain ⟨n, -, ⟨r, v, hn⟩ | hn | ⟨src, addr, u, -, hu, hn⟩ | ⟨k, info, -, hn⟩⟩ := exec_cases i s <;>
    obtain rfl := Host.Outcome.next.inj (h.symm.trans hn)
  · exact .inl rfl
  · exact .inl rfl
  · obtain ⟨-, rfl⟩ := State.memWrite16_eq_some.1 hu
    exact .inl rfl
  · exact .inr ⟨k, info, rfl⟩

/-- Settles O29: by what a step can do; of the two that start from RUNNING, a meaning leaves STATUS alone or latches a fault,
and a rejected fetch latches one. -/
theorem stepCompletesOrFaults : Obligations.StepCompletesOrFaults := by
  intro s
  obtain ⟨t, ht⟩ := step_next s
  refine ⟨t, ht, fun hs => Host.Outcome.next.inj (ht.symm.trans (step_faulted hs)), fun hs => ?_⟩
  obtain ⟨hs', -⟩ | ⟨-, i, hf, he⟩ | ⟨-, -, -, n, k, info, -, -, -, rfl⟩ := step_cases ht
  · exact absurd (hs.symm.trans hs') nofun
  · exact (exec_status he).imp_left fun hstatus => ⟨hstatus, i, _, hf, he⟩
  · exact .inr ⟨k, info, rfl⟩

/-! ### Running the pseudocode -/

section
variable {α β : Type} {p : Micro α} {s t : State}

/-- A line that answers hands its value and its state on to the lines behind it. -/
theorem micro_bind_ok {a : α} (h : p.run s = (.ok a, t)) (k : α → Micro β) : (p >>= k).run s = (k a).run t := by
  change ExceptT.bindCont k (p.run s).1 (p.run s).2 = _
  rw [h]
  rfl

/-- A line that raises ends the pseudocode, in the state it has written so far. -/
theorem micro_bind_error {e : Fault × Word} (h : p.run s = (.error e, t)) (k : α → Micro β) :
    (p >>= k).run s = (.error e, t) := by
  change ExceptT.bindCont k (p.run s).1 (p.run s).2 = _
  rw [h]
  rfl

end

/-- With IP inside memory, Fetch8 answers the byte at IP and advances IP by 1 (40_engine.md R80). -/
theorem microFetch8_inside {s : State} (h : (s.reg .ip).toNat < s.cfg.memSize) :
    microFetch8.run s = (.ok (s.byte (s.reg .ip).toNat), s.advance 1) := by
  change ExceptT.run (microRead _ (s.memRead8 _) >>= _) s = _
  rw [State.memRead8_eq_some.2 ⟨h, rfl⟩]
  rfl

/-- With IP outside memory, Fetch8 raises and leaves IP where it is (40_engine.md R80). -/
theorem microFetch8_outside {s : State} (h : s.cfg.memSize ≤ (s.reg .ip).toNat) :
    microFetch8.run s = (.error (.outOfBoundsAddress, s.reg .ip), s) := by
  change ExceptT.run (microRead _ (s.memRead8 _) >>= _) s = _
  rw [State.memRead8_eq_none.2 h]
  rfl

/-- With both bytes at IP inside memory, Fetch16 answers their word and advances IP by 2 (40_engine.md R81). -/
theorem microFetch16_inside {s : State} (h : (s.reg .ip).toNat + 1 < s.cfg.memSize) :
    microFetch16.run s =
      (.ok (wordOfBytes (s.byte (s.reg .ip).toNat) (s.byte ((s.reg .ip).toNat + 1))), s.advance 2) := by
  change ExceptT.run (microRead _ (s.memRead16 _) >>= _) s = _
  rw [State.memRead16_eq_some.2 ⟨h, rfl⟩]
  rfl

/-- With a byte at IP outside memory, Fetch16 raises and leaves IP where it is (40_engine.md R81). -/
theorem microFetch16_outside {s : State} (h : s.cfg.memSize ≤ (s.reg .ip).toNat + 1) :
    microFetch16.run s = (.error (.outOfBoundsAddress, s.reg .ip), s) := by
  change ExceptT.run (microRead _ (s.memRead16 _) >>= _) s = _
  rw [State.memRead16_eq_none.2 h]
  rfl

theorem microResolve_some {b : Byte} {r : RegName} (h : RegName.ofId b = some r) : microResolve b = pure r := by
  rw [microResolve, h]

theorem microResolve_none {b : Byte} (h : RegName.ofId b = none) :
    microResolve b = throw (.invalidRegisterId, zext16 b) := by
  rw [microResolve, h]

theorem microAddOperand_supported {r : RegName} (h : r.isAddOperand = true) (b : Byte) :
    microAddOperand r b = pure () := by
  have hr : r = .r1 ∨ r = .r2 := by simpa [RegName.isAddOperand] using h
  rw [microAddOperand, if_pos hr]

theorem microAddOperand_unsupported {r : RegName} (h : r.isAddOperand = false) (b : Byte) :
    microAddOperand r b = throw (.unsupportedOperand, zext16 b) := by
  have hr : ¬(r = .r1 ∨ r = .r2) := by simpa [RegName.isAddOperand] using h
  rw [microAddOperand, if_neg hr]

/-- The handler that Dispatch calls for a mnemonic (40_engine.md R83). -/
def microHandler : Mnemonic → Micro Unit
  | .movLitReg => microMovLitReg
  | .movRegReg => microMovRegReg
  | .movRegMem => microMovRegMem
  | .movMemReg => microMovMemReg
  | .addRegReg => microAddRegReg
  | .jmpNotEq => microJmpNotEq

theorem microDispatch_of_lookup_some {s : State} {b : Byte} {m : Mnemonic} (h : s.cfg.opcodes.lookup b = some m) :
    (microDispatch b).run s = (microHandler m).run s := by
  refine (micro_bind_ok (s := s) (a := s) (t := s) rfl _).trans ?_
  simp only [h]
  cases m <;> rfl

theorem microDispatch_of_lookup_none {s : State} {b : Byte} (h : s.cfg.opcodes.lookup b = none) :
    (microDispatch b).run s = (.error (.invalidOpcode, zext16 b), s) := by
  refine (micro_bind_ok (s := s) (a := s) (t := s) rfl _).trans ?_
  simp only [h]
  rfl

/-! ### The decoder and the pseudocode agree

The decoder fetches all of an instruction before its meaning starts; the pseudocode works while it fetches. They are held
together operand by operand: the lines that consume an operand agree with the decoding of that operand if the lines behind
them agree with the decoding behind it. -/

/-- The end of `Step()`: the state the pseudocode wrote, with the fault it raised latched (40_engine.md R82). -/
def microFinish (start : Word) : Except (Fault × Word) Unit × State → State
  | (.ok _, t) => t
  | (.error (k, info), t) => t.enterFault k info start

theorem microStep_running {s : State} (h : s.status.state = .running) :
    microStep s = microFinish (s.reg .ip) ((microFetch8 >>= microDispatch).run s.begin) := by
  have hs : s.status.state ≠ .faulted := by rw [h]; nofun
  rw [microStep, if_neg hs]
  rfl

theorem State.advance_zero (s : State) : s.advance 0 = s := by simp [State.advance]

/-- In an instruction that started in `s` and has fetched `n` bytes, the rest `d` of the decoding leads where the lines `p`
do. -/
def State.Agrees (s : State) (n : Nat) (d : Decoded State) (p : Micro Unit) : Prop :=
  s.afterFetch d = .next (microFinish (s.reg .ip) (p.run (s.advance n)))

section
variable {s : State} {n : Nat}

/-- A rejected fetch agrees with lines that raise its fault where it stopped. -/
theorem agrees_reject {p : Micro Unit} {r : Reject} {t : State}
    (h : p.run (s.advance n) = (.error (t.rejectFault r), t)) : s.Agrees n (.reject r t) p := by
  rw [State.Agrees, h]
  rfl

/-- A word operand (40_engine.md R81). -/
theorem agrees_withWord {k : Word → State → Decoded State} {p : Word → Micro Unit}
    (h : ∀ w, s.Agrees (n + 2) (k w (s.advance (n + 2))) (p w)) :
    s.Agrees n (memorySource.withWord (s.advance n) k) (microFetch16 >>= p) := by
  rw [withWord_memory]
  split
  · next hout => exact agrees_reject (micro_bind_error (microFetch16_outside hout) p)
  · next hin =>
    rw [State.Agrees, micro_bind_ok (microFetch16_inside (Nat.not_le.1 hin)) p, State.advance_advance]
    exact h _

/-- A register operand, resolved at once (40_engine.md R80, R84, R85). -/
theorem agrees_withReg {k : RegName → State → Decoded State} {p : Byte → RegName → Micro Unit}
    (h : ∀ r, s.Agrees (n + 1) (k r (s.advance (n + 1))) (p r.id r)) :
    s.Agrees n (memorySource.withReg (s.advance n) k) (microFetch8 >>= fun b => microResolve b >>= p b) := by
  rw [withReg_memory]
  split
  · next hout => exact agrees_reject (micro_bind_error (microFetch8_outside hout) _)
  · next hin =>
    have hfetch := micro_bind_ok (microFetch8_inside (Nat.not_le.1 hin)) fun b => microResolve b >>= p b
    split
    · next hid =>
      refine agrees_reject (hfetch.trans ?_)
      rw [microResolve_none hid]
      rfl
    · next r hid =>
      rw [microResolve_some hid, RegName.ofId_eq_some.1 hid, pure_bind] at hfetch
      rw [State.Agrees, hfetch, State.advance_advance]
      exact h r

end

/-- Everything behind ADD_REG_REG's unsupported first operand leads to that operand's fault (42_arithmetic.md R120). -/
theorem agrees_addRegReg_op1 {s : State} {op1 : RegName} (h : op1.isAddOperand = false) (p : Unit → Micro Unit) :
    s.Agrees 2
      (addRejectOrder op1 (s.advance 2)
        (memorySource.withReg (s.advance 2) fun op2 t => .ok (.addRegReg op1 op2) t))
      (microAddOperand op1 op1.id >>= p) := by
  have hraise : (microAddOperand op1 op1.id >>= p).run (s.advance 2) =
      (.error (.unsupportedOperand, zext16 op1.id), s.advance 2) := by
    rw [microAddOperand_unsupported h]
    rfl
  cases hd : memorySource.withReg (s.advance 2) fun op2 t => .ok (.addRegReg op1 op2) t with
  | ok i rest =>
    obtain ⟨op2, hi⟩ := withReg_memory_ok hd
    cases hi
    rw [addRejectOrder_ok, State.Agrees, hraise]
    exact exec_addRegReg_op1 h op2 s
  | reject r t =>
    simp only [addRejectOrder, h]
    exact agrees_reject hraise

/-- The adder is the sum modulo 2^16 that the spec writes (42_arithmetic.md R121). -/
theorem aluAdd_eq_ofNat (a b : Word) : aluAdd a b = BitVec.ofNat 16 ((a.toNat + b.toNat) % 2 ^ 16) := by
  rw [aluAdd, ← BitVec.toNat_add, BitVec.ofNat_toNat, BitVec.setWidth_eq]

/-- ADD_REG_REG with both operands decoded: its second operand's check, then the sum (42_arithmetic.md R120). -/
theorem agrees_addRegReg_op2 {s t : State} {op1 op2 : RegName} (h1 : op1.isAddOperand = true) :
    s.Agrees 3 (.ok (.addRegReg op1 op2) t) (microAddOperand op2 op2.id >>= fun _ =>
      modify fun s => s.setReg .acc (BitVec.ofNat 16 (((s.reg op1).toNat + (s.reg op2).toNat) % 2 ^ 16))) := by
  rw [State.Agrees, State.afterFetch]
  cases h2 : op2.isAddOperand with
  | false =>
    rw [exec_addRegReg_op2 h1 h2, microAddOperand_unsupported h2]
    rfl
  | true =>
    rw [exec_addRegReg_supported h1 h2, microAddOperand_supported h2, aluAdd_eq_ofNat]
    rfl

/-- The store of MOV_REG_MEM with its operands decoded (41_data_movement.md R102). -/
theorem agrees_movRegMem {s t : State} (src : RegName) (addr : Word) :
    s.Agrees 4 (.ok (.movRegMem src addr) t) (do
      let v := (← get).reg src
      let u ← microRead addr ((← get).memWrite16 addr.toNat v)
      set (u.emit addr v)) := by
  change execMovRegMem src addr s = .next (microFinish _ (ExceptT.run
    (microRead addr ((s.advance 4).memWrite16 addr.toNat ((s.advance 4).reg src)) >>= _) (s.advance 4)))
  simp only [execMovRegMem, show Mnemonic.movRegMem.length = 4 from rfl]
  cases (s.advance 4).memWrite16 addr.toNat ((s.advance 4).reg src) <;> rfl

/-- The load of MOV_MEM_REG with its operands decoded (41_data_movement.md R103). -/
theorem agrees_movMemReg {s t : State} (addr : Word) (dest : RegName) :
    s.Agrees 4 (.ok (.movMemReg addr dest) t) (do
      let v ← microRead addr ((← get).memRead16 addr.toNat)
      modify fun s => s.setReg dest v) := by
  change execMovMemReg addr dest s = .next (microFinish _ (ExceptT.run
    (microRead addr ((s.advance 4).memRead16 addr.toNat) >>= _) (s.advance 4)))
  simp only [execMovMemReg, show Mnemonic.movMemReg.length = 4 from rfl]
  cases (s.advance 4).memRead16 addr.toNat <;> rfl

/-- The jump with its operands decoded (43_control_transfer.md R130). -/
theorem agrees_jmpNotEq {s t : State} (lit target : Word) :
    s.Agrees 5 (.ok (.jmpNotEq lit target) t) (do
      if lit ≠ (← get).reg .acc then
        modify fun s => s.setReg .ip target) := by
  change exec (.jmpNotEq lit target) s = .next (microFinish _ (ExceptT.run
    (if lit ≠ s.reg .acc then modify fun s => s.setReg .ip target else pure () : Micro Unit) (s.advance 5)))
  rw [exec_jmpNotEq]
  by_cases h : lit = s.reg .acc
  · rw [if_pos h, if_neg (not_not.2 h)]
    rfl
  · rw [if_neg h, if_pos h, ← s.setReg_ip_advance 5]
    rfl

/-- Behind the opcode byte each handler agrees with the decoding of its operands (30_encoding.md R64). -/
theorem agrees_handler (s : State) (m : Mnemonic) :
    s.Agrees 1 (decodeOperands memorySource (s.advance 1) m) (microHandler m) := by
  cases m with
  | movLitReg => exact agrees_withWord fun lit => agrees_withReg fun dest => exec_movLitReg lit dest s
  | movRegReg => exact agrees_withReg fun src => agrees_withReg fun dest => exec_movRegReg src dest s
  | movRegMem => exact agrees_withReg fun src => agrees_withWord fun addr => agrees_movRegMem src addr
  | movMemReg => exact agrees_withWord fun addr => agrees_withReg fun dest => agrees_movMemReg addr dest
  | addRegReg =>
    refine agrees_withReg fun op1 => ?_
    cases h1 : op1.isAddOperand with
    | false => exact agrees_addRegReg_op1 h1 _
    | true =>
      rw [addRejectOrder_of_isAddOperand h1, microAddOperand_supported h1, pure_bind]
      exact agrees_withReg fun op2 => agrees_addRegReg_op2 h1
  | jmpNotEq => exact agrees_withWord fun lit => agrees_withWord fun target => agrees_jmpNotEq lit target

/-- The opcode fetch and Dispatch agree with the decoder (40_engine.md R82, R83). -/
theorem agrees_fetchInstr (s : State) : s.Agrees 0 s.fetchInstr (microFetch8 >>= microDispatch) := by
  rw [State.Agrees, State.advance_zero, State.fetchInstr_eq]
  split
  · next hout =>
    rw [micro_bind_error (microFetch8_outside hout)]
    rfl
  · next hin =>
    rw [micro_bind_ok (microFetch8_inside (Nat.not_le.1 hin))]
    split
    · next hl =>
      rw [microDispatch_of_lookup_none (s := s.advance 1) hl]
      rfl
    · next m hl =>
      rw [microDispatch_of_lookup_some (s := s.advance 1) hl]
      exact agrees_handler s m

/-- Settles O20: in the fault state both change nothing; from RUNNING the decoder and the pseudocode agree from the opcode
fetch on. -/
theorem stepIsTheSpecPseudocode : Obligations.StepIsTheSpecPseudocode := by
  intro s
  cases hs : s.status.state with
  | faulted => rw [step_faulted hs, microStep, if_pos hs]
  | running =>
    have hagrees := agrees_fetchInstr s.begin
    rw [State.Agrees, State.advance_zero] at hagrees
    rw [step_running hs, microStep_running hs, hagrees, State.begin_reg]

end Sys2Proof.Machine

/-! PROOFS of the family 41_data_movement.md: what MOV_LIT_REG does and what a step at its opcode does (R100), word accesses
at the top of the address range (R102, R103; 20_memory.md R50), and the one output of a store (R102; 20_memory.md R48). -/

namespace Sys2Proof.Machine

/-! ### The result of MOV_LIT_REG -/

/-- Settles O10: the meaning advances IP by 4 and then writes the literal to its destination. -/
theorem movLitRegResult : Obligations.MovLitRegResult := by
  intro s lit dest
  refine ⟨_, exec_movLitReg lit dest s, State.reg_setReg_same _ _ _, fun hip => ?_,
    s.keepsAllBut_advance_setReg 4 dest lit⟩
  rw [State.reg_setReg_ne _ _ hip.symm, State.advance_ip]
  rfl

/-! ### Where a step at a legal opcode byte leads, operand by operand -/

/-- Under a legal binding a step at the opcode byte of a mnemonic goes on to its operands, one byte on (40_engine.md R82,
R83). -/
theorem step_at_code {s : State} (m : Mnemonic) (hrun : s.status.state = .running) (hop : s.cfg.opcodes.legal)
    (hin : (s.reg .ip).toNat < s.cfg.memSize) (hb : s.byte (s.reg .ip).toNat = s.cfg.opcodes.code m) :
    step s = s.begin.afterFetch (decodeOperands memorySource (s.begin.advance 1) m) := by
  simp [step_running hrun, State.fetchInstr_eq, Nat.not_le.2 hin, hb, OpcodeMap.lookup_code hop]

/-- A fetch that fails raises with IP where it stands (40_engine.md R80, R81, R88). -/
theorem afterFetch_fetchFailed (s : State) (n : Nat) :
    s.afterFetch (.reject .fetchFailed (s.advance n)) =
      .next (s.faultedAt (s.reg .ip + BitVec.ofNat 16 n) .outOfBoundsAddress (s.reg .ip + BitVec.ofNat 16 n)) := by
  rw [State.afterFetch, State.raiseReject, State.rejectFault, State.advance_ip]
  rfl

section
variable {s : State} {n : Nat}

/-- A word operand outside memory raises with IP at the operand (40_engine.md R81, R88). -/
theorem afterFetch_withWord_outside (h : s.cfg.memSize ≤ (s.reg .ip + BitVec.ofNat 16 n).toNat + 1)
    (k : Word → State → Decoded State) :
    s.afterFetch (memorySource.withWord (s.advance n) k) =
      .next (s.faultedAt (s.reg .ip + BitVec.ofNat 16 n) .outOfBoundsAddress (s.reg .ip + BitVec.ofNat 16 n)) := by
  rw [withWord_memory, State.advance_ip, State.advance_cfg, if_pos h, afterFetch_fetchFailed]

/-- A word operand inside memory is consumed (40_engine.md R81). -/
theorem afterFetch_withWord_inside (h : ¬s.cfg.memSize ≤ (s.reg .ip + BitVec.ofNat 16 n).toNat + 1)
    (k : Word → State → Decoded State) :
    s.afterFetch (memorySource.withWord (s.advance n) k) =
      s.afterFetch (k (wordOfBytes (s.byte (s.reg .ip + BitVec.ofNat 16 n).toNat)
        (s.byte ((s.reg .ip + BitVec.ofNat 16 n).toNat + 1))) (s.advance (n + 2))) := by
  simp only [withWord_memory, State.advance_ip, State.advance_cfg, State.advance_byte, if_neg h,
    State.advance_advance]

/-- A register operand outside memory raises with IP at the operand (40_engine.md R80, R88). -/
theorem afterFetch_withReg_outside (h : s.cfg.memSize ≤ (s.reg .ip + BitVec.ofNat 16 n).toNat)
    (k : RegName → State → Decoded State) :
    s.afterFetch (memorySource.withReg (s.advance n) k) =
      .next (s.faultedAt (s.reg .ip + BitVec.ofNat 16 n) .outOfBoundsAddress (s.reg .ip + BitVec.ofNat 16 n)) := by
  rw [withReg_memory, State.advance_ip, State.advance_cfg, if_pos h, afterFetch_fetchFailed]

/-- A register operand that names no register raises with IP just past it (40_engine.md R84, R88). -/
theorem afterFetch_withReg_unnamed (h : ¬s.cfg.memSize ≤ (s.reg .ip + BitVec.ofNat 16 n).toNat)
    (hid : RegName.ofId (s.byte (s.reg .ip + BitVec.ofNat 16 n).toNat) = none)
    (k : RegName → State → Decoded State) :
    s.afterFetch (memorySource.withReg (s.advance n) k) =
      .next (s.faultedAt (s.reg .ip + BitVec.ofNat 16 (n + 1)) .invalidRegisterId
        (zext16 (s.byte (s.reg .ip + BitVec.ofNat 16 n).toNat))) := by
  simp only [withReg_memory, State.advance_ip, State.advance_cfg, State.advance_byte, if_neg h, hid,
    State.advance_advance]
  rfl

/-- A register operand that names a register is consumed (40_engine.md R80, R84). -/
theorem afterFetch_withReg_named {r : RegName} (h : ¬s.cfg.memSize ≤ (s.reg .ip + BitVec.ofNat 16 n).toNat)
    (hid : RegName.ofId (s.byte (s.reg .ip + BitVec.ofNat 16 n).toNat) = some r)
    (k : RegName → State → Decoded State) :
    s.afterFetch (memorySource.withReg (s.advance n) k) = s.afterFetch (k r (s.advance (n + 1))) := by
  simp only [withReg_memory, State.advance_ip, State.advance_cfg, State.advance_byte, if_neg h, hid,
    State.advance_advance]

end

/-- Settles O23: behind the opcode byte the literal is outside memory or consumed, and then the destination is outside memory,
names no register, or is consumed and written. -/
theorem movLitRegStep : Obligations.MovLitRegStep := by
  intro s hrun hop hin hb start u
  refine (step_at_code .movLitReg hrun hop hin hb).trans ?_
  split
  · next hlit => exact afterFetch_withWord_outside (s := u) hlit _
  · next hlit =>
    refine (afterFetch_withWord_inside (s := u) hlit _).trans ?_
    split
    · next hdest => exact afterFetch_withReg_outside (s := u) hdest _
    · next hdest =>
      split
      · next hid => exact afterFetch_withReg_unnamed (s := u) hdest hid _
      · next d hid => exact (afterFetch_withReg_named (s := u) hdest hid _).trans (exec_movLitReg _ d u)

/-! ### Word accesses at the top of the address range -/

/-- A register after IP has moved on: IP is the only one that reads otherwise (40_engine.md R86). -/
theorem State.advance_reg (s : State) (n : Nat) (r : RegName) :
    (s.advance n).reg r = if r = .ip then s.reg .ip + BitVec.ofNat 16 n else s.reg r :=
  s.reg_setReg .ip r _

section
variable {s : State}

/-- A store leaves its high byte at its address (20_memory.md R45, R47). -/
theorem State.afterStore_byte_hi (hwf : s.mem.wf) (src : RegName) (addr : Word) :
    (s.afterStore src addr).byte addr.toNat = wordHi ((s.advance 4).reg src) := by
  simp [State.afterStore_byte hwf]

/-- A store leaves its low byte at the next address, not wrapped (20_memory.md R45, R47, R50). -/
theorem State.afterStore_byte_lo (hwf : s.mem.wf) (src : RegName) (addr : Word) :
    (s.afterStore src addr).byte (addr.toNat + 1) = wordLo ((s.advance 4).reg src) := by
  simp [State.afterStore_byte hwf]

/-- A store changes no byte but its two (20_memory.md R45). -/
theorem State.afterStore_byte_ne (hwf : s.mem.wf) (src : RegName) {addr : Word} {k : Nat} (h0 : k ≠ addr.toNat)
    (h1 : k ≠ addr.toNat + 1) : (s.afterStore src addr).byte k = s.byte k := by
  rw [State.afterStore_byte hwf, if_neg h1, if_neg h0]

end

/-- Settles O8: 0xFFFF as a natural number has its second byte at 0x10000, and the bound decides all three accesses. -/
theorem wordAccessAtTopNeverWraps : Obligations.WordAccessAtTopNeverWraps := by
  intro s r
  refine ⟨fun hout => ?_, fun hin => ?_⟩
  · have hout' : s.cfg.memSize ≤ (0xFFFF : Word).toNat + 1 := hout
    refine ⟨exec_movRegMem_outside r hout', exec_movMemReg_outside r hout', fun hip => ?_⟩
    refine ⟨State.fetch16_eq_none.2 (by rwa [hip]), fun start => ?_⟩
    rw [State.raiseReject, State.rejectFault, hip]
  · have hin' : (0xFFFF : Word).toNat + 1 < s.cfg.memSize := hin
    refine ⟨fun hwf => ?_, ⟨_, exec_movMemReg_inside r hin', State.reg_setReg_same _ _ _⟩, fun hip => ?_⟩
    · exact ⟨_, _, exec_movRegMem_inside r hin', s.advance_reg 4 r, State.afterStore_byte_hi hwf r 0xFFFF,
        State.afterStore_byte_lo hwf r 0xFFFF, fun k h0 h1 => State.afterStore_byte_ne hwf r h0 h1⟩
    · refine State.fetch16_eq_some.2 ⟨by rwa [hip], by rw [hip]; rfl, ?_⟩
      rw [State.advance, hip]
      rfl

/-! ### The output of a store -/

/-- A step at a store inside memory is that store (R102). -/
theorem step_movRegMem_inside {s rest : State} {src : RegName} {addr : Word} (hrun : s.status.state = .running)
    (hf : s.begin.fetchInstr = .ok (.movRegMem src addr) rest) (hin : addr.toNat + 1 < s.cfg.memSize) :
    step s = .next (s.begin.afterStore src addr) := by
  rw [step_running hrun, hf]
  exact exec_movRegMem_inside src hin

/-- After a store to a canonical memory its address holds the word (20_memory.md R44, R45). -/
theorem State.afterStore_memRead16 {s : State} (hwf : s.mem.wf) (src : RegName) {addr : Word}
    (hin : addr.toNat + 1 < s.cfg.memSize) :
    (s.afterStore src addr).memRead16 addr.toNat = some ((s.advance 4).reg src) :=
  State.memRead16_eq_some.2 ⟨hin, by
    rw [State.afterStore_byte_hi hwf, State.afterStore_byte_lo hwf, wordOfBytes_hi_lo]⟩

/-- A meaning emits nothing unless it is a store inside memory (20_memory.md R48). -/
theorem exec_writeEvents {i : Instr} {s t : State} (he : exec i s = .next t) :
    t.writeEvents = s.writeEvents ∨ ∃ src addr, i = .movRegMem src addr ∧ addr.toNat + 1 < s.cfg.memSize := by
  obtain ⟨n, -, ⟨r, v, hn⟩ | hn | ⟨src, addr, u, hi, hu, hn⟩ | ⟨k, info, -, hn⟩⟩ := exec_cases i s <;>
    obtain rfl := Host.Outcome.next.inj (he.symm.trans hn)
  · exact .inl rfl
  · exact .inl rfl
  · exact .inr ⟨src, addr, hi, (State.memWrite16_eq_some.1 hu).1⟩
  · exact .inl rfl

/-- A step emits nothing unless it fetched a store inside memory (20_memory.md R48). -/
theorem step_writeEvents {s t : State} (h : step s = .next t) :
    t.writeEvents = s.writeEvents ∨ ∃ src addr rest,
      s.begin.fetchInstr = .ok (.movRegMem src addr) rest ∧ addr.toNat + 1 < s.cfg.memSize := by
  obtain ⟨-, rfl⟩ | ⟨-, i, hf, he⟩ | ⟨-, r, u, n, k, info, -, -, -, rfl⟩ := step_cases h
  · exact .inl rfl
  · refine (exec_writeEvents he).imp_right ?_
    rintro ⟨src, addr, rfl, hin⟩
    exact ⟨src, addr, _, hf, hin⟩
  · exact .inl rfl

/-- Settles O41: a step at a store inside memory leaves the word and its one output; any other emits nothing. -/
theorem oneWriteEventPerCompletedStore : Obligations.OneWriteEventPerCompletedStore := by
  intro s t hwf hrun hstep
  refine ⟨fun src addr rest hf hin => ?_, fun hout => ?_⟩
  · obtain rfl := Host.Outcome.next.inj ((step_movRegMem_inside hrun hf hin).symm.trans hstep)
    exact ⟨_, rfl, State.afterStore_memRead16 (s := s.begin) hwf src hin, rfl⟩
  · obtain hnone | ⟨src, addr, rest, hf, hin⟩ := step_writeEvents hstep
    · exact hnone
    · exact absurd (hout src addr rest hf) (Nat.not_le.2 hin)

end Sys2Proof.Machine

/-! PROOFS of the family 43_control_transfer.md: what JMP_NOT_EQ does and what a step at its opcode does (R130), and the jump
to itself, which the core never ends (R130; 40_engine.md R92). -/

namespace Sys2Proof.Machine

/-! ### The result of JMP_NOT_EQ -/

/-- Writing one register leaves everything else as it was (10_state.md R23). -/
theorem State.keepsAllBut_setReg (s : State) (r : RegName) (v : Word) : s.keepsAllBut (s.setReg r v) [r] :=
  ⟨fun _ hq => State.reg_setReg_ne _ _ (List.ne_of_not_mem_cons hq), fun _ => rfl, rfl, rfl, rfl, rfl⟩

/-- The jump is one write of IP: just past the instruction where the literal is ACC's value, else the target (R130). -/
theorem exec_jmpNotEq_setReg (lit target : Word) (s : State) :
    exec (.jmpNotEq lit target) s = .next (s.setReg .ip (if lit = s.reg .acc then s.reg .ip + 5 else target)) := by
  rw [exec_jmpNotEq]
  split <;> rfl

/-- Settles O17: the meaning writes IP and nothing else. -/
theorem jmpNotEqResult : Obligations.JmpNotEqResult := fun s lit target =>
  ⟨_, exec_jmpNotEq_setReg lit target s, State.reg_setReg_same _ _ _, s.keepsAllBut_setReg .ip _⟩

/-- A literal other than ACC's value takes the jump (R130). -/
theorem exec_jmpNotEq_taken {s : State} {lit : Word} (h : lit ≠ s.reg .acc) (target : Word) :
    exec (.jmpNotEq lit target) s = .next (s.setReg .ip target) := by
  rw [exec_jmpNotEq, if_neg h]

/-- With ACC's value as the literal IP goes on past the instruction (R130). -/
theorem exec_jmpNotEq_not_taken {s : State} {lit : Word} (h : lit = s.reg .acc) (target : Word) :
    exec (.jmpNotEq lit target) s = .next (s.advance 5) := by
  rw [exec_jmpNotEq, if_pos h]

/-- Settles O28: behind the opcode byte the literal is outside memory or consumed, then the target likewise, and then the
literal differs from ACC or does not. -/
theorem jmpNotEqStep : Obligations.JmpNotEqStep := by
  intro s hrun hop hin hb start u
  refine (step_at_code .jmpNotEq hrun hop hin hb).trans ?_
  split
  · next hlit => exact afterFetch_withWord_outside (s := u) hlit _
  · next hlit =>
    refine (afterFetch_withWord_inside (s := u) hlit _).trans ?_
    split
    · next htarget => exact afterFetch_withWord_outside (s := u) htarget _
    · next htarget =>
      refine (afterFetch_withWord_inside (s := u) htarget _).trans ?_
      split
      · next hne => exact exec_jmpNotEq_taken (s := u) hne _
      · next heq => exact exec_jmpNotEq_not_taken (s := u) (not_not.1 heq) _

/-! ### The jump to itself -/

/-- A run goes on from the state its first step answers. -/
theorem core_run_succ {s t : State} (h : step s = .next t) (n : Nat) : core.run (n + 1) s = core.run n t := by
  simp [Host.Core.run, core, h]

/-- A state that a step does not change is not changed by any number of steps. -/
theorem core_run_of_step_self {s : State} (h : step s = .next s) (n : Nat) : core.run n s = .next s := by
  induction n with
  | zero => rfl
  | succ n ih => rw [core_run_succ h, ih]

/-- A taken jump to its own address changes nothing but `started` (R130; 10_state.md R32). -/
theorem step_jump_to_itself {s : State} {lit : Word} (hrun : s.status.state = .running) (hop : s.cfg.opcodes.legal)
    (h : s.holdsAtIp (.jmpNotEq lit (s.reg .ip))) (hne : lit ≠ s.reg .acc) : step s = .next s.begin := by
  rw [stepRunsTheEncodedInstruction s _ hrun hop h, exec_jmpNotEq_taken (s := s.begin) hne, ← s.begin_reg,
    State.setReg_self]

/-- Settles O31: one step leads to `s.begin`, where the same jump stands, and from there a step changes nothing. -/
theorem jumpToItselfRunsForever : Obligations.JumpToItselfRunsForever := by
  intro s lit hrun hop h hne n
  have hself : step s.begin = .next s.begin := step_jump_to_itself (s := s.begin) hrun hop h hne
  rw [core_run_succ (step_jump_to_itself hrun hop h hne), core_run_of_step_self hself]

end Sys2Proof.Machine

/-! PROOFS of the family 60_exceptions.md: which kinds of fault a step at each opcode can latch (R140). -/

namespace Sys2Proof.Machine

/-! ### The kinds of fault each instruction raises -/

/-- The column "raised by" of 60_exceptions.md R140, read by instruction: the kinds that the fetches behind its opcode byte
and its meaning raise. -/
def faultKinds : Mnemonic → List Fault
  | .movLitReg | .movRegReg | .movRegMem | .movMemReg => [.outOfBoundsAddress, .invalidRegisterId]
  | .addRegReg => [.outOfBoundsAddress, .invalidRegisterId, .unsupportedOperand]
  | .jmpNotEq => [.outOfBoundsAddress]

/-- Every instruction has fetches behind its opcode byte, which can be outside memory (R140). -/
theorem outOfBoundsAddress_mem_faultKinds (m : Mnemonic) : .outOfBoundsAddress ∈ faultKinds m := by
  cases m <;> decide

/-- Dispatch alone raises `InvalidOpcode` (R140). -/
theorem invalidOpcode_not_mem_faultKinds (m : Mnemonic) : .invalidOpcode ∉ faultKinds m := by
  cases m <;> decide

/-- Only ADD_REG_REG raises `UnsupportedOperand` (R140). -/
theorem unsupportedOperand_mem_faultKinds {m : Mnemonic} : .unsupportedOperand ∈ faultKinds m ↔ m = .addRegReg := by
  cases m <;> decide

/-! ### What a rejected operand raises -/

/-- Where this decode is rejected, the fault it raises is of one of these kinds. -/
def RaisesOnly (ks : List Fault) (d : Decoded State) : Prop :=
  ∀ r t, d = .reject r t → (t.rejectFault r).1 ∈ ks

section
variable {ks : List Fault} {src : Source State} {s : State}

/-- A decode that answers an instruction raises nothing. -/
theorem raisesOnly_ok (i : Instr) : RaisesOnly ks (.ok i s) := nofun

/-- A rejected decode raises the kind of its reject. -/
theorem raisesOnly_reject {r : Reject} (h : (s.rejectFault r).1 ∈ ks) : RaisesOnly ks (.reject r s) := by
  rintro _ _ ⟨⟩
  exact h

/-- A word operand adds the fault of its fetch (40_engine.md R81). -/
theorem raisesOnly_withWord {k : Word → State → Decoded State} (hfetch : .outOfBoundsAddress ∈ ks)
    (hk : ∀ w u, RaisesOnly ks (k w u)) : RaisesOnly ks (src.withWord s k) := by
  unfold Source.withWord
  split
  · exact raisesOnly_reject hfetch
  · exact hk _ _

/-- A register operand adds the faults of its fetch and of its id (40_engine.md R80, R84). -/
theorem raisesOnly_withReg {k : RegName → State → Decoded State} (hfetch : .outOfBoundsAddress ∈ ks)
    (hid : .invalidRegisterId ∈ ks) (hk : ∀ q u, RaisesOnly ks (k q u)) : RaisesOnly ks (src.withReg s k) := by
  unfold Source.withReg
  split
  · exact raisesOnly_reject hfetch
  · split
    · exact raisesOnly_reject hid
    · exact hk _ _

/-- ADD_REG_REG's check of its first operand adds `UnsupportedOperand` (42_arithmetic.md R120). -/
theorem raisesOnly_addRejectOrder {op1 : RegName} {d : Decoded State} (hop1 : .unsupportedOperand ∈ ks)
    (hd : RaisesOnly ks d) : RaisesOnly ks (addRejectOrder op1 s d) := by
  unfold addRejectOrder
  split
  · exact raisesOnly_ok _
  · split
    · exact hd
    · exact raisesOnly_reject hop1

/-- The operands of an instruction raise only its own kinds (R140). -/
theorem raisesOnly_decodeOperands (m : Mnemonic) : RaisesOnly (faultKinds m) (decodeOperands src s m) := by
  have hfetch := outOfBoundsAddress_mem_faultKinds m
  cases m with
  | movLitReg | movMemReg =>
    exact raisesOnly_withWord hfetch fun _ _ => raisesOnly_withReg hfetch (by decide) fun _ _ => raisesOnly_ok _
  | movRegReg =>
    exact raisesOnly_withReg hfetch (by decide) fun _ _ =>
      raisesOnly_withReg hfetch (by decide) fun _ _ => raisesOnly_ok _
  | movRegMem =>
    exact raisesOnly_withReg hfetch (by decide) fun _ _ => raisesOnly_withWord hfetch fun _ _ => raisesOnly_ok _
  | addRegReg =>
    exact raisesOnly_withReg hfetch (by decide) fun _ _ => raisesOnly_addRejectOrder (by decide) <|
      raisesOnly_withReg hfetch (by decide) fun _ _ => raisesOnly_ok _
  | jmpNotEq =>
    exact raisesOnly_withWord hfetch fun _ _ => raisesOnly_withWord hfetch fun _ _ => raisesOnly_ok _

end

/-! ### What a meaning raises -/

/-- A meaning that turns a RUNNING core to FAULTED latches a kind of its own instruction (R140): the data access of the
two memory moves is outside memory, or an operand of ADD_REG_REG is unsupported. -/
theorem exec_latches {i : Instr} {s t : State} {k : Fault} (hrun : s.status.state = .running)
    (he : exec i s = .next t) (hk : t.status.kind = some k) (ht : t.status.state = .faulted) :
    k ∈ faultKinds i.mnemonic := by
  have hkept : t.status ≠ s.status := fun h => by simp [h, hrun] at ht
  cases i with
  | movLitReg lit dest => cases he; exact absurd rfl hkept
  | movRegReg src dest => cases he; exact absurd rfl hkept
  | movRegMem src addr =>
    rcases Nat.lt_or_ge (addr.toNat + 1) s.cfg.memSize with hin | hout
    · cases (exec_movRegMem_inside src hin).symm.trans he
      exact absurd rfl hkept
    · cases (exec_movRegMem_outside src hout).symm.trans he
      cases hk
      exact outOfBoundsAddress_mem_faultKinds _
  | movMemReg addr dest =>
    rcases Nat.lt_or_ge (addr.toNat + 1) s.cfg.memSize with hin | hout
    · cases (exec_movMemReg_inside dest hin).symm.trans he
      exact absurd rfl hkept
    · cases (exec_movMemReg_outside dest hout).symm.trans he
      cases hk
      exact outOfBoundsAddress_mem_faultKinds _
  | addRegReg op1 op2 =>
    cases h1 : op1.isAddOperand with
    | false =>
      cases (exec_addRegReg_op1 h1 op2 s).symm.trans he
      cases hk
      exact unsupportedOperand_mem_faultKinds.2 rfl
    | true =>
      cases h2 : op2.isAddOperand with
      | false =>
        cases (exec_addRegReg_op2 h1 h2 s).symm.trans he
        cases hk
        exact unsupportedOperand_mem_faultKinds.2 rfl
      | true =>
        cases (exec_addRegReg_supported h1 h2 s).symm.trans he
        exact absurd rfl hkept
  | jmpNotEq lit target =>
    cases (exec_jmpNotEq_setReg lit target s).symm.trans he
    exact absurd rfl hkept

/-! ### What a step latches -/

/-- An opcode fetch outside memory is rejected where it stands (40_engine.md R80). -/
theorem State.fetchInstr_outside {s : State} (hout : s.cfg.memSize ≤ (s.reg .ip).toNat) :
    s.fetchInstr = .reject .fetchFailed s := by
  rw [State.fetchInstr_eq, if_pos hout]

/-- A step at a legal opcode byte latches only kinds of the instruction it selects: its fetch is rejected at an operand, or
its meaning raises (40_engine.md R82, R83). -/
theorem step_latches {s t : State} {m : Mnemonic} {k : Fault} (hrun : s.status.state = .running)
    (hin : (s.reg .ip).toNat < s.cfg.memSize) (hm : s.cfg.opcodes.lookup (s.byte (s.reg .ip).toNat) = some m)
    (h : step s = .next t) (hk : t.status.kind = some k) (ht : t.status.state = .faulted) : k ∈ faultKinds m := by
  have hoperands : s.begin.fetchInstr = decodeOperands memorySource (s.begin.advance 1) m := by
    simp [State.fetchInstr_eq, Nat.not_le.2 hin, hm]
  rw [step_running hrun] at h
  cases hf : s.begin.fetchInstr with
  | ok i rest =>
    obtain ⟨-, hi, -⟩ := State.fetchInstr_ok hf
    obtain rfl := Option.some.inj (hm.symm.trans hi)
    rw [hf] at h
    exact exec_latches (s := s.begin) hrun h hk ht
  | reject r u =>
    rw [hf] at h
    cases h
    cases hk
    exact raisesOnly_decodeOperands m r u (hoperands.symm.trans hf)

/-- Settles O33: the opcode fetch is outside memory, or dispatch rejects the byte, or the byte selects an instruction, whose
own kinds are all the step can latch. -/
theorem faultKindsByInstruction : Obligations.FaultKindsByInstruction := by
  intro s t k hrun hop h hk ht
  split
  · next hout =>
    cases (step_rejected hrun (State.fetchInstr_outside (s := s.begin) hout)).symm.trans h
    exact (Option.some.inj hk).symm
  · next hin =>
    replace hin := Nat.not_le.1 hin
    intro b
    cases hm : s.cfg.opcodes.lookup b with
    | none =>
      have hb : b ∉ s.cfg.opcodes.codes := OpcodeMap.lookup_eq_none.1 hm
      cases (invalidOpcodeFaults s hrun hin hb).symm.trans h
      cases hk
      exact ⟨iff_of_true hb rfl, fun hj => absurd (hj ▸ s.cfg.opcodes.code_mem_codes .jmpNotEq) hb, nofun⟩
    | some m =>
      have hb : b = s.cfg.opcodes.code m := OpcodeMap.code_of_lookup hm
      have hkm : k ∈ faultKinds m := step_latches hrun hin hm h hk ht
      refine ⟨iff_of_false (not_not.2 (hb ▸ s.cfg.opcodes.code_mem_codes m)) ?_, fun hj => ?_, ?_⟩
      · rintro rfl
        exact invalidOpcode_not_mem_faultKinds m hkm
      · have hjump : s.cfg.opcodes.lookup b = some .jmpNotEq := hj ▸ OpcodeMap.lookup_code hop .jmpNotEq
        obtain rfl := Option.some.inj (hm.symm.trans hjump)
        exact List.mem_singleton.1 hkm
      · rintro rfl
        obtain rfl := unsupportedOperand_mem_faultKinds.1 hkm
        exact hb

end Sys2Proof.Machine

/-! PROOFS of the remaining statements: an instruction and its encoding determine each other (30_encoding.md R63, R64). -/

namespace Sys2Proof

/-! ### From an instruction to its bytes and back -/

/-- Operands decode from their own bytes, whatever follows (30_encoding.md R63): a word is read back from its two bytes, a
register from its id. -/
theorem decodeOperands_operandBytes (i : Instr) (rest : List Byte) :
    decodeOperands listSource (i.operandBytes ++ rest) i.mnemonic = .ok i rest := by
  cases i <;>
    simp only [Instr.operandBytes, Instr.mnemonic, decodeOperands, List.cons_append, List.nil_append, withWord_list,
      wordOfBytes_hi_lo, withReg_list_id, addRejectOrder_ok]

/-- Settles O1: a legal opcode byte selects its own mnemonic, whose operands decode from their bytes. -/
theorem decodeInvertsEncode : Obligations.DecodeInvertsEncode := fun _ i rest hop =>
  (decode_code hop i.mnemonic _).trans (decodeOperands_operandBytes i rest)

/-! ### From bytes to an instruction and back -/

section
variable {bytes rest : List Byte} {i : Instr}

/-- A decoded word operand was the word's two bytes, and decoding went on behind them. -/
theorem withWord_list_ok {k : Word → List Byte → Decoded (List Byte)} (h : listSource.withWord bytes k = .ok i rest) :
    ∃ w tail, bytes = wordHi w :: wordLo w :: tail ∧ k w tail = .ok i rest := by
  match bytes with
  | [] | [_] => cases h
  | hi :: lo :: tail => exact ⟨wordOfBytes hi lo, tail, by simp, h⟩

/-- A decoded register operand was the register's id, and decoding went on behind it. -/
theorem withReg_list_ok {k : RegName → List Byte → Decoded (List Byte)} (h : listSource.withReg bytes k = .ok i rest) :
    ∃ r tail, bytes = r.id :: tail ∧ k r tail = .ok i rest := by
  match bytes with
  | [] => cases h
  | b :: tail =>
    cases hb : RegName.ofId b with
    | none => cases (withReg_list_of_none hb tail k).symm.trans h
    | some r => exact ⟨r, tail, by rw [RegName.ofId_eq_some.1 hb], (withReg_list_of_some hb tail k).symm.trans h⟩

/-- Ordering ADD_REG_REG's rejects accepts what is accepted without it, and no more. -/
theorem addRejectOrder_eq_ok {σ : Type} {op1 : RegName} {atOp1 t : σ} {d : Decoded σ}
    (h : addRejectOrder op1 atOp1 d = .ok i t) : d = .ok i t := by
  unfold addRejectOrder at h
  split at h
  · exact h
  · split at h <;> cases h

/-- Bytes that decode as the operands of a mnemonic are the operand bytes of an instruction of it, and then the rest
(30_encoding.md R63). -/
theorem decodeOperands_list_ok {m : Mnemonic} (h : decodeOperands listSource bytes m = .ok i rest) :
    i.mnemonic = m ∧ bytes = i.operandBytes ++ rest := by
  cases m with
  | movLitReg | movMemReg =>
    obtain ⟨w, _, rfl, h1⟩ := withWord_list_ok h
    obtain ⟨r, _, rfl, h2⟩ := withReg_list_ok h1
    cases h2
    exact ⟨rfl, rfl⟩
  | movRegReg =>
    obtain ⟨src, _, rfl, h1⟩ := withReg_list_ok h
    obtain ⟨dest, _, rfl, h2⟩ := withReg_list_ok h1
    cases h2
    exact ⟨rfl, rfl⟩
  | movRegMem =>
    obtain ⟨src, _, rfl, h1⟩ := withReg_list_ok h
    obtain ⟨addr, _, rfl, h2⟩ := withWord_list_ok h1
    cases h2
    exact ⟨rfl, rfl⟩
  | addRegReg =>
    obtain ⟨op1, _, rfl, h1⟩ := withReg_list_ok h
    obtain ⟨op2, _, rfl, h2⟩ := withReg_list_ok (addRejectOrder_eq_ok h1)
    cases h2
    exact ⟨rfl, rfl⟩
  | jmpNotEq =>
    obtain ⟨lit, _, rfl, h1⟩ := withWord_list_ok h
    obtain ⟨target, _, rfl, h2⟩ := withWord_list_ok h1
    cases h2
    exact ⟨rfl, rfl⟩

end

/-- Settles O2: the opcode byte is the code of the mnemonic it selects, and the operand bytes are those of its operands. -/
theorem decodedBytesAreTheEncoding : Obligations.DecodedBytesAreTheEncoding := by
  intro op bytes rest i h
  match bytes with
  | [] => cases h
  | b :: tail =>
    cases hm : op.lookup b with
    | none => cases (decode_of_lookup_none hm tail).symm.trans h
    | some m =>
      obtain ⟨rfl, rfl⟩ := decodeOperands_list_ok ((decode_of_lookup_some hm tail).symm.trans h)
      rw [OpcodeMap.code_of_lookup hm]
      rfl

/-- Settles O5, by running the decoder on the ten words. -/
theorem specWordsDecode : Obligations.SpecWordsDecode := by
  unfold Obligations.SpecWordsDecode
  decide

end Sys2Proof

/-! PROOFS of the remaining statements: the results of the moves and of ADD_REG_REG (41_data_movement.md R101 to R103,
42_arithmetic.md R120, R121). -/

namespace Sys2Proof.Machine

/-! ### The results of the moves -/

/-- A write behind the fetches leaves IP just past the instruction, unless IP is its destination (40_engine.md R90). -/
theorem State.advance_setReg_ip (s : State) (n : Nat) {r : RegName} (h : r ≠ .ip) (v : Word) :
    ((s.advance n).setReg r v).reg .ip = s.reg .ip + BitVec.ofNat 16 n := by
  rw [State.reg_setReg_ne _ _ h.symm, State.advance_ip]

/-- Settles O11: the meaning advances IP by 3 and then writes the source, read behind the advance, to its destination. -/
theorem movRegRegResult : Obligations.MovRegRegResult := by
  intro s src dest
  refine ⟨_, exec_movRegReg src dest s, ?_, fun hip => s.advance_setReg_ip 3 hip _,
    s.keepsAllBut_advance_setReg 3 dest _⟩
  rw [State.reg_setReg_same]
  exact s.advance_reg 3 src

/-- Settles O12: the meaning inside memory is the store, whose bytes, output and registers are known. -/
theorem movRegMemResult : Obligations.MovRegMemResult := fun s src addr hwf hin =>
  ⟨_, _, exec_movRegMem_inside src hin, s.advance_reg 4 src, State.afterStore_byte_hi hwf src addr,
    State.afterStore_byte_lo hwf src addr, fun _ => State.afterStore_byte_ne hwf src, rfl, s.advance_ip 4,
    fun _ => s.advance_reg_ne 4, rfl, rfl, rfl⟩

/-- Settles O14: store and load alike latch the fault once IP is past the instruction. -/
theorem dataAccessOutsideMemoryFaults : Obligations.DataAccessOutsideMemoryFaults := by
  intro s r addr hout i hi
  have hexec : exec i s = .next ((s.advance 4).enterFault .outOfBoundsAddress addr (s.reg .ip)) := by
    obtain rfl | rfl := List.mem_pair.1 hi
    · exact exec_movRegMem_outside r hout
    · exact exec_movMemReg_outside r hout
  exact ⟨_, hexec, rfl, s.advance_ip 4, fun _ => s.advance_reg_ne 4, rfl, rfl, rfl, rfl⟩

/-! ### The results of ADD_REG_REG -/

/-- ADD_REG_REG takes R1 and R2 (42_arithmetic.md R120). -/
theorem isAddOperand_iff {r : RegName} : r.isAddOperand = true ↔ r = .r1 ∨ r = .r2 := by
  simp [RegName.isAddOperand]

/-- IP is no operand of ADD_REG_REG, so the fetches leave the operands' values alone (42_arithmetic.md R120). -/
theorem advance_reg_of_isAddOperand {r : RegName} (h : r.isAddOperand = true) (s : State) (n : Nat) :
    (s.advance n).reg r = s.reg r :=
  s.advance_reg_ne n (by rintro rfl; cases h)

/-- Settles O15: both operands are supported, so the meaning advances IP by 3 and writes the adder's sum to ACC. -/
theorem addRegRegResult : Obligations.AddRegRegResult := by
  intro s op1 op2 hwf
  obtain ⟨h1, h2⟩ : op1.isAddOperand = true ∧ op2.isAddOperand = true := Bool.and_eq_true_iff.1 hwf
  refine ⟨_, exec_addRegReg_supported h1 h2 s, ?_, s.advance_setReg_ip 3 (r := .acc) nofun _,
    s.keepsAllBut_advance_setReg 3 .acc _⟩
  rw [State.reg_setReg_same, advance_reg_of_isAddOperand h1, advance_reg_of_isAddOperand h2]
  exact BitVec.toNat_add _ _

/-- Settles O16: the first operand is unsupported, or it is supported and the second is not. -/
theorem addRegRegUnsupportedOperand : Obligations.AddRegRegUnsupportedOperand := by
  intro s op1 op2 hwf
  cases h1 : op1.isAddOperand with
  | false =>
    refine ⟨_, exec_addRegReg_op1 h1 op2 s, ?_, fun _ => s.advance_reg_ne 2, rfl, rfl, rfl, rfl⟩
    rw [if_neg (isAddOperand_iff.not.1 (Bool.eq_false_iff.1 h1))]
    exact ⟨s.advance_ip 2, rfl⟩
  | true =>
    have h2 : op2.isAddOperand = false := by
      have hboth : (op1.isAddOperand && op2.isAddOperand) = false := hwf
      rwa [h1, Bool.true_and] at hboth
    refine ⟨_, exec_addRegReg_op2 h1 h2 s, ?_, fun _ => s.advance_reg_ne 3, rfl, rfl, rfl, rfl⟩
    rw [if_pos (isAddOperand_iff.1 h1)]
    exact ⟨s.advance_ip 3, rfl⟩

end Sys2Proof.Machine

/-! PROOFS of the remaining statements: the step (40_engine.md R80, R82) and what it does at the opcodes of MOV_REG_REG,
MOV_REG_MEM, MOV_MEM_REG and ADD_REG_REG (41_data_movement.md R101 to R103, 42_arithmetic.md R120). -/

namespace Sys2Proof.Machine

/-! ### The step -/

/-- Settles O18: what a fetched instruction leads to is its meaning. -/
theorem stepRunsTheFetchedInstruction : Obligations.StepRunsTheFetchedInstruction := by
  intro s rest i hrun hf
  rw [step_running hrun, hf, State.afterFetch]

/-- A fault latched with IP unmoved leaves every register alone (60_exceptions.md R143). -/
theorem State.faultedAt_ip (s : State) (k : Fault) (info : Word) :
    s.faultedAt (s.reg .ip) k info = s.enterFault k info (s.reg .ip) := by
  rw [State.faultedAt, State.setReg_self]

/-- Settles O21: the opcode fetch is rejected where it stands, and the step latches that reject. -/
theorem opcodeFetchOutsideMemoryFaults : Obligations.OpcodeFetchOutsideMemoryFaults := by
  intro s hrun hout
  rw [step_rejected hrun (State.fetchInstr_outside (s := s.begin) hout), ← s.begin_reg, State.faultedAt_ip]
  rfl

/-- Settles O30: the first step writes the target to IP, and the second finds IP outside memory. -/
theorem jumpOutsideMemoryFaultsOnTheNextStep : Obligations.JumpOutsideMemoryFaultsOnTheNextStep := by
  intro s lit target hrun hop h hne hout
  have hfirst : step s = .next (s.begin.setReg .ip target) := by
    rw [stepRunsTheEncodedInstruction s _ hrun hop h, exec_jmpNotEq_taken (s := s.begin) hne]
  have hip : (s.begin.setReg .ip target).reg .ip = target := State.reg_setReg_same _ _ _
  have hsecond := opcodeFetchOutsideMemoryFaults (s.begin.setReg .ip target) hrun (by rwa [hip])
  rw [hip] at hsecond
  refine ⟨hfirst, ?_⟩
  rw [core_run_succ hfirst, core_run_succ hsecond]
  rfl

/-! ### The step at the opcode of each move -/

/-- Settles O24: behind the opcode byte the source is outside memory, names no register, or is consumed, and then the
destination likewise. -/
theorem movRegRegStep : Obligations.MovRegRegStep := by
  intro s hrun hop hin hb start u
  refine (step_at_code .movRegReg hrun hop hin hb).trans ?_
  split
  · next hsrc => exact afterFetch_withReg_outside (s := u) hsrc _
  · next hsrc =>
    split
    · next hid => exact afterFetch_withReg_unnamed (s := u) hsrc hid _
    · next src hid =>
      refine (afterFetch_withReg_named (s := u) hsrc hid _).trans ?_
      split
      · next hdest => exact afterFetch_withReg_outside (s := u) hdest _
      · next hdest =>
        split
        · next hid' => exact afterFetch_withReg_unnamed (s := u) hdest hid' _
        · next d hid' => exact (afterFetch_withReg_named (s := u) hdest hid' _).trans (exec_movRegReg src d u)

/-- Settles O25: behind the opcode byte the source is outside memory, names no register, or is consumed; then the address is
outside memory or consumed; and then the word at that address is outside memory or stored. -/
theorem movRegMemStep : Obligations.MovRegMemStep := by
  intro s hrun hop hin hb start u
  refine (step_at_code .movRegMem hrun hop hin hb).trans ?_
  split
  · next hsrc => exact afterFetch_withReg_outside (s := u) hsrc _
  · next hsrc =>
    split
    · next hid => exact afterFetch_withReg_unnamed (s := u) hsrc hid _
    · next src hid =>
      refine (afterFetch_withReg_named (s := u) hsrc hid _).trans ?_
      split
      · next haddr => exact afterFetch_withWord_outside (s := u) haddr _
      · next haddr =>
        refine (afterFetch_withWord_inside (s := u) haddr _).trans ?_
        dsimp only
        split
        · next hout => exact exec_movRegMem_outside (s := u) src hout
        · next hinside => exact exec_movRegMem_inside (s := u) src (Nat.not_le.1 hinside)

/-- Settles O26: behind the opcode byte the address is outside memory or consumed; then the destination is outside memory,
names no register, or is consumed; and then the word at the address is outside memory or loaded. -/
theorem movMemRegStep : Obligations.MovMemRegStep := by
  intro s hrun hop hin hb start u
  refine (step_at_code .movMemReg hrun hop hin hb).trans ?_
  split
  · next haddr => exact afterFetch_withWord_outside (s := u) haddr _
  · next haddr =>
    refine (afterFetch_withWord_inside (s := u) haddr _).trans ?_
    split
    · next hdest => exact afterFetch_withReg_outside (s := u) hdest _
    · next hdest =>
      split
      · next hid => exact afterFetch_withReg_unnamed (s := u) hdest hid _
      · next d hid =>
        refine (afterFetch_withReg_named (s := u) hdest hid _).trans ?_
        dsimp only
        split
        · next hout => exact exec_movMemReg_outside (s := u) d hout
        · next hinside => exact exec_movMemReg_inside (s := u) d (Nat.not_le.1 hinside)

/-! ### The step at the opcode of ADD_REG_REG -/

/-- The bytes up to 0x09 name registers (30_encoding.md R62). -/
theorem exists_ofId_eq_some {b : Byte} (h : ¬0x09 < b.toNat) : ∃ r, RegName.ofId b = some r :=
  Option.ne_none_iff_exists'.1 (mt RegName.ofId_eq_none.1 h)

/-- R1 and R2 are the registers with the ids 0x02 and 0x03 (30_encoding.md R62, 42_arithmetic.md R120). -/
theorem isAddOperand_eq_false_iff_id {r : RegName} : r.isAddOperand = false ↔ r.id ≠ 0x02 ∧ r.id ≠ 0x03 := by
  cases r <;> decide

/-- A register with the id 0x02 or 0x03 is an operand of ADD_REG_REG (42_arithmetic.md R120). -/
theorem isAddOperand_of_id {r : RegName} (h : ¬(r.id ≠ 0x02 ∧ r.id ≠ 0x03)) : r.isAddOperand = true :=
  Bool.eq_true_of_not_eq_false (mt isAddOperand_eq_false_iff_id.1 h)

/-- The value of a supported operand, by its id (42_arithmetic.md R120). -/
theorem reg_of_isAddOperand {r : RegName} (h : r.isAddOperand = true) (s : State) :
    s.reg r = if r.id = 0x02 then s.reg .r1 else s.reg .r2 := by
  obtain rfl | rfl := isAddOperand_iff.1 h <;> rfl

/-- Behind an unsupported first operand nothing else is reported, whatever the second byte is (42_arithmetic.md R120). -/
theorem afterFetch_addRegReg_op1 {op1 : RegName} (h : op1.isAddOperand = false) (s : State) :
    s.afterFetch (addRejectOrder op1 (s.advance 2)
        (memorySource.withReg (s.advance 2) fun op2 t => .ok (.addRegReg op1 op2) t)) =
      .next (s.faultedAt (s.reg .ip + 2) .unsupportedOperand (zext16 op1.id)) := by
  refine (agrees_addRegReg_op1 h pure).trans ?_
  rw [microAddOperand_unsupported h]
  rfl

/-- With both operands supported ACC takes the sum of their values (42_arithmetic.md R120, R121). -/
theorem exec_addRegReg_sum {op1 op2 : RegName} (h1 : op1.isAddOperand = true) (h2 : op2.isAddOperand = true) (s : State) :
    exec (.addRegReg op1 op2) s = .next ((s.setReg .ip (s.reg .ip + 3)).setReg .acc
      ((if op1.id = 0x02 then s.reg .r1 else s.reg .r2) + (if op2.id = 0x02 then s.reg .r1 else s.reg .r2))) := by
  rw [exec_addRegReg_supported h1 h2, advance_reg_of_isAddOperand h1, advance_reg_of_isAddOperand h2,
    reg_of_isAddOperand h1, reg_of_isAddOperand h2]
  rfl

/-- Settles O27: behind the opcode byte the first operand is outside memory, names no register, is unsupported, or is
consumed, and then the second likewise. -/
theorem addRegRegStep : Obligations.AddRegRegStep := by
  intro s hrun hop hin hb start u b1 b2
  refine (step_at_code .addRegReg hrun hop hin hb).trans ?_
  split
  · next hout => exact afterFetch_withReg_outside (s := u) hout _
  next hin1 =>
  split
  · next hb1 => exact afterFetch_withReg_unnamed (s := u) hin1 (RegName.ofId_eq_none.2 hb1) _
  next hb1 =>
  obtain ⟨op1, hid1⟩ := exists_ofId_eq_some hb1
  refine (afterFetch_withReg_named (s := u) hin1 hid1 _).trans ?_
  rw [RegName.ofId_eq_some.1 hid1]
  split
  · next h1 => exact afterFetch_addRegReg_op1 (isAddOperand_eq_false_iff_id.2 h1) u
  next h1 =>
  replace h1 := isAddOperand_of_id h1
  rw [addRejectOrder_of_isAddOperand h1]
  split
  · next hout => exact afterFetch_withReg_outside (s := u) hout _
  next hin2 =>
  split
  · next hb2 => exact afterFetch_withReg_unnamed (s := u) hin2 (RegName.ofId_eq_none.2 hb2) _
  next hb2 =>
  obtain ⟨op2, hid2⟩ := exists_ofId_eq_some hb2
  refine (afterFetch_withReg_named (s := u) hin2 hid2 _).trans ?_
  rw [RegName.ofId_eq_some.1 hid2]
  split
  · next h2 => exact exec_addRegReg_op2 h1 (isAddOperand_eq_false_iff_id.2 h2) u
  · next h2 => exact exec_addRegReg_sum h1 (isAddOperand_of_id h2) u

end Sys2Proof.Machine

/-! PROOFS of the remaining statements: what a step that faults leaves (40_engine.md R88, 60_exceptions.md R143), which
register each instruction writes (10_state.md R22), and what no step reads (10_state.md R27, R32; 20_memory.md R48). -/

namespace Sys2Proof.Machine

/-! ### What a step that faults leaves -/

/-- A meaning that turns a RUNNING core to FAULTED has moved IP and latched the fault, and no more (40_engine.md R88). -/
theorem exec_faulted {i : Instr} {s t : State} (hrun : s.status.state = .running) (he : exec i s = .next t)
    (ht : t.status.state = .faulted) :
    ∃ n ≤ 5, ∃ k info, t = (s.advance n).enterFault k info (s.reg .ip) := by
  have hkept : t.status ≠ s.status := fun h => by simp [h, hrun] at ht
  obtain ⟨n, hn, ⟨r, v, hnext⟩ | hnext | ⟨src, addr, u, -, hu, hnext⟩ | ⟨k, info, -, hnext⟩⟩ := exec_cases i s <;>
    obtain rfl := Host.Outcome.next.inj (he.symm.trans hnext)
  · exact absurd rfl hkept
  · exact absurd rfl hkept
  · obtain ⟨-, rfl⟩ := State.memWrite16_eq_some.1 hu
    exact absurd rfl hkept
  · exact ⟨n, hn, k, info, rfl⟩

/-- A step that turns a RUNNING core to FAULTED has set `started`, moved IP and latched the fault, and no more (R88). -/
theorem step_faults {s t : State} (hrun : s.status.state = .running) (h : step s = .next t)
    (ht : t.status.state = .faulted) :
    ∃ n ≤ 5, ∃ k info, t = (s.begin.advance n).enterFault k info (s.reg .ip) := by
  obtain ⟨hs, -⟩ | ⟨-, i, -, he⟩ | ⟨-, r, u, n, k, info, -, hn, -, ht⟩ := step_cases h
  · exact absurd (hrun.symm.trans hs) nofun
  · exact exec_faulted (s := s.begin) hrun he ht
  · exact ⟨n, hn, k, info, ht⟩

/-- A fetched instruction leaves the step to its meaning, and IP just past it (40_engine.md R82, R90). -/
theorem exec_of_step {s t rest : State} {i : Instr} (hrun : s.status.state = .running) (h : step s = .next t)
    (hf : s.begin.fetchInstr = .ok i rest) : exec i s.begin = .next t ∧ rest = s.begin.advance i.length :=
  ⟨(stepRunsTheFetchedInstruction s rest i hrun hf).symm.trans h, (State.fetchInstr_ok hf).2.2⟩

/-- Settles O32: the faulted state is `s.begin` with IP moved and STATUS latched; where IP is, the rejected fetch says or the
meaning of the fetched instruction. -/
theorem faultLeavesOnlyIpAndStatus : Obligations.FaultLeavesOnlyIpAndStatus := by
  intro s t hrun h ht
  obtain ⟨n, hn, k, info, rfl⟩ := step_faults hrun h ht
  refine ⟨fun _ => s.begin.advance_reg_ne n, rfl, rfl, rfl, rfl, rfl, fun r u hf => ?_, fun i rest hf => ?_,
    fun i rest hf => ?_, n, hn, s.begin.advance_ip n⟩
  · rw [Host.Outcome.next.inj (h.symm.trans (step_rejected hrun hf))]
    rfl
  · obtain ⟨he, rfl⟩ := exec_of_step hrun h hf
    have hip := exec_faulted_ip (s := s.begin) hrun he ht
    cases i <;> exact hip
  · obtain ⟨-, rfl⟩ := exec_of_step hrun h hf
    exact s.begin.advance_ip _

/-! ### Which register a step writes -/

/-- The register other than IP that an instruction writes when it completes (10_state.md R22). -/
def destination : Instr → Option RegName
  | .movLitReg _ dest | .movRegReg _ dest | .movMemReg _ dest => some dest
  | .addRegReg _ _ => some .acc
  | .movRegMem _ _ | .jmpNotEq _ _ => none

/-- A meaning leaves every register but IP and its destination alone (10_state.md R22, 40_engine.md R87, R88). -/
theorem exec_reg_of_ne {i : Instr} {s t : State} {r : RegName} (he : exec i s = .next t) (hip : r ≠ .ip)
    (hr : destination i ≠ some r) : t.reg r = s.reg r := by
  have hadvance (n : Nat) : (s.advance n).reg r = s.reg r := s.advance_reg_ne n hip
  have hwrite {d : RegName} (hd : some d ≠ some r) (n : Nat) (v : Word) : ((s.advance n).setReg d v).reg r = s.reg r := by
    rw [State.reg_setReg_ne _ _ fun h => hd (congrArg some h.symm), hadvance]
  cases i with
  | movLitReg lit dest =>
    cases (exec_movLitReg lit dest s).symm.trans he
    exact hwrite hr _ _
  | movRegReg src dest =>
    cases (exec_movRegReg src dest s).symm.trans he
    exact hwrite hr _ _
  | movRegMem src addr =>
    rcases Nat.lt_or_ge (addr.toNat + 1) s.cfg.memSize with hin | hout
    · cases (exec_movRegMem_inside src hin).symm.trans he
      exact hadvance 4
    · cases (exec_movRegMem_outside src hout).symm.trans he
      exact hadvance 4
  | movMemReg addr dest =>
    rcases Nat.lt_or_ge (addr.toNat + 1) s.cfg.memSize with hin | hout
    · cases (exec_movMemReg_inside dest hin).symm.trans he
      exact hwrite hr _ _
    · cases (exec_movMemReg_outside dest hout).symm.trans he
      exact hadvance 4
  | addRegReg op1 op2 =>
    cases h1 : op1.isAddOperand with
    | false =>
      cases (exec_addRegReg_op1 h1 op2 s).symm.trans he
      exact hadvance 2
    | true =>
      cases h2 : op2.isAddOperand with
      | false =>
        cases (exec_addRegReg_op2 h1 h2 s).symm.trans he
        exact hadvance 3
      | true =>
        cases (exec_addRegReg_supported h1 h2 s).symm.trans he
        exact hwrite hr _ _
  | jmpNotEq lit target =>
    cases (exec_jmpNotEq_setReg lit target s).symm.trans he
    exact State.reg_setReg_ne _ _ hip

/-- Settles O40: of what a step can do, only the meaning of the fetched instruction writes a register other than IP, and only
its destination. -/
theorem registersChangeOnlyAsDestinations : Obligations.RegistersChangeOnlyAsDestinations := by
  intro s t r h hip hr
  obtain ⟨-, rfl⟩ | ⟨-, i, hf, he⟩ | ⟨-, -, -, n, k, info, -, -, -, rfl⟩ := step_cases h
  · exact absurd rfl hr
  · refine ⟨i, _, hf, ?_⟩
    have hdest : destination i = some r := not_not.1 fun hne => hr (exec_reg_of_ne (s := s.begin) he hip hne)
    cases i with
    | movLitReg | movRegReg | movMemReg => exact Option.some.inj hdest
    | addRegReg => exact (Option.some.inj hdest).symm
    | movRegMem | jmpNotEq => cases hdest
  · exact absurd (s.begin.advance_reg_ne n hip) hr

/-! ### What no step reads

A state and the same state with another STATUS and other outputs are fetched from alike, and a meaning takes both to states
that again differ there only: in STATUS, unless it faults, and by the earlier outputs. -/

/-- `s` with this STATUS and these outputs. -/
def State.withUnread (s : State) (st : Status) (es : List WriteEvent) : State :=
  { s with status := st, writeEvents := es }

/-- The answer of a decoder with another source left. -/
def mapRest {σ τ : Type} (f : σ → τ) : Decoded σ → Decoded τ
  | .ok i rest => .ok i (f rest)
  | .reject r rest => .reject r (f rest)

section
variable {s : State} {st : Status} {es : List WriteEvent}

@[simp] theorem State.withUnread_cfg : (s.withUnread st es).cfg = s.cfg := rfl

/-- Fetch8 reads alike (40_engine.md R80). -/
theorem fetch8_withUnread : (s.withUnread st es).fetch8 = s.fetch8.map (Prod.map id (·.withUnread st es)) := by
  change (match s.memRead8 (s.reg .ip).toNat with | none => none | some b => _) = _
  unfold State.fetch8
  cases s.memRead8 (s.reg .ip).toNat <;> rfl

/-- Fetch16 reads alike (40_engine.md R81). -/
theorem fetch16_withUnread : (s.withUnread st es).fetch16 = s.fetch16.map (Prod.map id (·.withUnread st es)) := by
  change (match s.memRead16 (s.reg .ip).toNat with | none => none | some w => _) = _
  unfold State.fetch16
  cases s.memRead16 (s.reg .ip).toNat <;> rfl

/-- A word operand is decoded alike. -/
theorem withWord_withUnread {k : Word → State → Decoded State}
    (h : ∀ w u, k w (u.withUnread st es) = mapRest (·.withUnread st es) (k w u)) :
    memorySource.withWord (s.withUnread st es) k = mapRest (·.withUnread st es) (memorySource.withWord s k) := by
  unfold Source.withWord
  rw [memorySource_word, fetch16_withUnread]
  cases s.fetch16 with
  | none => rfl
  | some wt => exact h _ _

/-- A register operand is decoded alike. -/
theorem withReg_withUnread {k : RegName → State → Decoded State}
    (h : ∀ r u, k r (u.withUnread st es) = mapRest (·.withUnread st es) (k r u)) :
    memorySource.withReg (s.withUnread st es) k = mapRest (·.withUnread st es) (memorySource.withReg s k) := by
  unfold Source.withReg
  rw [memorySource_byte, fetch8_withUnread]
  cases s.fetch8 with
  | none => rfl
  | some bt =>
    cases hid : RegName.ofId bt.1 with
    | none => simp [hid, mapRest]
    | some r => simp [hid, h]

/-- ADD_REG_REG's order of rejects is kept alike. -/
theorem addRejectOrder_withUnread (op1 : RegName) (u : State) (d : Decoded State) :
    addRejectOrder op1 (u.withUnread st es) (mapRest (·.withUnread st es) d) =
      mapRest (·.withUnread st es) (addRejectOrder op1 u d) := by
  cases d with
  | ok i rest => rfl
  | reject r rest =>
    simp only [addRejectOrder, mapRest]
    split <;> rfl

/-- Operands are decoded alike. -/
theorem decodeOperands_withUnread (m : Mnemonic) :
    decodeOperands memorySource (s.withUnread st es) m =
      mapRest (·.withUnread st es) (decodeOperands memorySource s m) := by
  cases m with
  | movLitReg | movMemReg => exact withWord_withUnread fun _ _ => withReg_withUnread fun _ _ => rfl
  | movRegReg => exact withReg_withUnread fun _ _ => withReg_withUnread fun _ _ => rfl
  | movRegMem => exact withReg_withUnread fun _ _ => withWord_withUnread fun _ _ => rfl
  | addRegReg =>
    refine withReg_withUnread fun op1 u => ?_
    rw [withReg_withUnread fun _ _ => rfl, addRejectOrder_withUnread]
  | jmpNotEq => exact withWord_withUnread fun _ _ => withWord_withUnread fun _ _ => rfl

/-- An instruction is fetched alike (40_engine.md R82, R83). -/
theorem fetchInstr_withUnread : (s.withUnread st es).fetchInstr = mapRest (·.withUnread st es) s.fetchInstr := by
  unfold State.fetchInstr decodeFrom
  rw [memorySource_byte, fetch8_withUnread]
  cases s.fetch8 with
  | none => rfl
  | some bt =>
    cases hm : s.cfg.opcodes.lookup bt.1 with
    | none => simp [hm, mapRest]
    | some m => simp [hm, decodeOperands_withUnread]

/-- From `s` the outcome `o` is a next state with some outputs added, and `o'` is the same but for what is not read: the
earlier outputs are `es`, and a STATUS left alone is `st`. -/
def StepsAlike (s : State) (st : Status) (es : List WriteEvent) (o o' : Host.Outcome State Fault Refusal) : Prop :=
  ∃ t new, o = .next t ∧ t.writeEvents = s.writeEvents ++ new ∧
    ((t.status = s.status ∧ o' = .next (t.withUnread st (es ++ new))) ∨
      (t.status.state = .faulted ∧ o' = .next (t.withUnread t.status (es ++ new))))

/-- Completing without an output. -/
theorem stepsAlike_completes {t : State} (hstatus : t.status = s.status) (hevents : t.writeEvents = s.writeEvents) :
    StepsAlike s st es (.next t) (.next (t.withUnread st es)) :=
  ⟨t, [], rfl, by rw [hevents, List.append_nil], .inl ⟨hstatus, by rw [List.append_nil]⟩⟩

/-- Latching a fault. -/
theorem stepsAlike_faults {t : State} (hevents : t.writeEvents = s.writeEvents) (k : Fault) (info start : Word) :
    StepsAlike s st es (.next (t.enterFault k info start)) (.next ((t.withUnread st es).enterFault k info start)) :=
  ⟨_, [], rfl, by rw [State.enterFault_writeEvents, hevents, List.append_nil],
    .inr ⟨rfl, by rw [List.append_nil]; rfl⟩⟩

/-- A meaning reads neither STATUS nor outputs (10_state.md R27, 20_memory.md R48). -/
theorem exec_withUnread (i : Instr) : StepsAlike s st es (exec i s) (exec i (s.withUnread st es)) := by
  cases i with
  | movLitReg lit dest => exact stepsAlike_completes rfl rfl
  | movRegReg src dest => exact stepsAlike_completes rfl rfl
  | movRegMem src addr =>
    rcases Nat.lt_or_ge (addr.toNat + 1) s.cfg.memSize with hin | hout
    · rw [exec_movRegMem_inside src hin, exec_movRegMem_inside (s := s.withUnread st es) src hin]
      exact ⟨_, [⟨addr, (s.advance 4).reg src⟩], rfl, rfl, .inl ⟨rfl, rfl⟩⟩
    · rw [exec_movRegMem_outside src hout, exec_movRegMem_outside (s := s.withUnread st es) src hout]
      exact stepsAlike_faults (t := s.advance 4) rfl _ _ _
  | movMemReg addr dest =>
    rcases Nat.lt_or_ge (addr.toNat + 1) s.cfg.memSize with hin | hout
    · rw [exec_movMemReg_inside dest hin, exec_movMemReg_inside (s := s.withUnread st es) dest hin]
      exact stepsAlike_completes rfl rfl
    · rw [exec_movMemReg_outside dest hout, exec_movMemReg_outside (s := s.withUnread st es) dest hout]
      exact stepsAlike_faults (t := s.advance 4) rfl _ _ _
  | addRegReg op1 op2 =>
    cases h1 : op1.isAddOperand with
    | false =>
      rw [exec_addRegReg_op1 h1, exec_addRegReg_op1 h1]
      exact stepsAlike_faults (t := s.advance 2) rfl _ _ _
    | true =>
      cases h2 : op2.isAddOperand with
      | false =>
        rw [exec_addRegReg_op2 h1 h2, exec_addRegReg_op2 h1 h2]
        exact stepsAlike_faults (t := s.advance 3) rfl _ _ _
      | true =>
        rw [exec_addRegReg_supported h1 h2, exec_addRegReg_supported h1 h2]
        exact stepsAlike_completes rfl rfl
  | jmpNotEq lit target =>
    rw [exec_jmpNotEq_setReg, exec_jmpNotEq_setReg]
    exact stepsAlike_completes rfl rfl

/-- What a fetch leads to depends on neither STATUS nor outputs (40_engine.md R82). -/
theorem afterFetch_withUnread :
    StepsAlike s st es (s.afterFetch s.fetchInstr) ((s.withUnread st es).afterFetch (s.withUnread st es).fetchInstr) := by
  rw [fetchInstr_withUnread]
  cases hf : s.fetchInstr with
  | ok i rest => exact exec_withUnread i
  | reject r u =>
    obtain ⟨n, -, rfl, -⟩ := State.fetchInstr_reject hf
    exact stepsAlike_faults (t := s.advance n) rfl _ _ _

/-- A step from RUNNING reads neither the rest of STATUS, nor `started`, nor outputs. -/
theorem step_withUnread (hrun : s.status.state = .running) (hst : st.state = .running) (b : Bool) :
    StepsAlike s st es (step s) (step { s.withUnread st es with started := b }) := by
  rw [step_running hrun, step_running (s := { s.withUnread st es with started := b }) hst]
  exact afterFetch_withUnread (s := s.begin)

end

/-- Settles O42: in the fault state a step adds no outputs; from RUNNING it steps alike whatever the earlier ones are. -/
theorem outputsAreNeverRead : Obligations.OutputsAreNeverRead := by
  intro s es
  cases hs : s.status.state with
  | faulted =>
    refine ⟨s, [], step_faulted hs, (List.append_nil _).symm, ?_⟩
    rw [List.append_nil]
    exact step_faulted hs
  | running =>
    obtain ⟨t, new, ht, hevents, ⟨hstatus, h⟩ | ⟨-, h⟩⟩ := step_withUnread (es := es) hs hs s.started
    · exact ⟨t, new, ht, hevents, h.trans (by rw [← hstatus]; rfl)⟩
    · exact ⟨t, new, ht, hevents, h⟩

/-- Settles O43: with its own outputs a RUNNING state steps alike under another RUNNING STATUS and another `started`. -/
theorem statusAndStartedAreNeverRead : Obligations.StatusAndStartedAreNeverRead := by
  intro s st b hrun hst
  obtain ⟨t, new, ht, hevents, ⟨hstatus, h⟩ | ⟨hfaulted, h⟩⟩ := step_withUnread (es := s.writeEvents) hrun hst b <;>
    rw [← hevents] at h <;> refine ⟨t, ht, h.trans ?_⟩
  · rw [if_pos (by rw [hstatus, hrun])]
    rfl
  · rw [if_neg (by rw [hfaulted]; nofun)]
    rfl

end Sys2Proof.Machine

/-! PROOFS of the remaining statements: the invariant and the transactions of the host (00_scope.md R8; 10_state.md R27, R32,
R34; 60_exceptions.md R143, R145; 70_reset_and_hazards.md R160 to R167). -/

namespace Sys2Proof.Machine

/-! ### What each transaction leaves alone -/

/-- LOAD_MEM changes memory alone (70_reset_and_hazards.md R162, R163). -/
theorem State.loadMem_frame (s : State) (addr : Nat) (v : Byte) :
    (s.loadMem addr v).2 = { s with mem := (s.loadMem addr v).2.mem } := by
  obtain h | ⟨-, h⟩ := s.loadMem_cases addr v
  · rw [h]
  · obtain ⟨-, h⟩ := State.memWrite8_eq_some.1 h
    rw [← h]

/-- LOAD_REG changes registers alone (70_reset_and_hazards.md R162, R164). -/
theorem State.loadReg_frame (s : State) (r : RegName) (v : Word) :
    (s.loadReg r v).2 = { s with regs := (s.loadReg r v).2.regs } := by
  unfold State.loadReg
  split <;> rfl

/-- A transaction other than STEP and RESET leaves STATUS, `started` and the parameters alone (10_state.md R32, R35). -/
theorem transact_keeps {s t : State} {tr : Transaction} {r : Reply} (h : transact s tr = .next (r, t))
    (hstep : tr ≠ .step) (hreset : tr ≠ .reset) : t.status = s.status ∧ t.started = s.started ∧ t.cfg = s.cfg := by
  cases tr with
  | reset => exact absurd rfl hreset
  | loadMem addr v =>
    obtain rfl : (s.loadMem addr v).2 = t := congrArg Prod.snd (Host.Outcome.next.inj h)
    rw [State.loadMem_frame]
    exact ⟨rfl, rfl, rfl⟩
  | loadReg q v =>
    obtain rfl : (s.loadReg q v).2 = t := congrArg Prod.snd (Host.Outcome.next.inj h)
    rw [State.loadReg_frame]
    exact ⟨rfl, rfl, rfl⟩
  | step => exact absurd rfl hstep
  | snapshot =>
    cases h
    exact ⟨rfl, rfl, rfl⟩

/-- A STEP transaction answers the step's state with the reply its STATUS gives (40_engine.md R82). -/
theorem stepReply_of_step {s t : State} (h : step s = .next t) : s.stepReply = .next (t.status.reply, t) := by
  rw [State.stepReply, h]

/-- A meaning leaves `started` and the parameters alone (10_state.md R32, R35). -/
theorem exec_keeps_started_cfg {i : Instr} {s t : State} (he : exec i s = .next t) :
    t.started = s.started ∧ t.cfg = s.cfg := by
  obtain ⟨n, -, ⟨r, v, hn⟩ | hn | ⟨src, addr, u, -, hu, hn⟩ | ⟨k, info, -, hn⟩⟩ := exec_cases i s <;>
    obtain rfl := Host.Outcome.next.inj (he.symm.trans hn)
  · exact ⟨rfl, rfl⟩
  · exact ⟨rfl, rfl⟩
  · obtain ⟨-, rfl⟩ := State.memWrite16_eq_some.1 hu
    exact ⟨rfl, rfl⟩
  · exact ⟨rfl, rfl⟩

/-- A step leaves the parameters alone (10_state.md R35). -/
theorem step_keeps_cfg {s t : State} (h : step s = .next t) : t.cfg = s.cfg := by
  obtain ⟨-, rfl⟩ | ⟨-, i, -, he⟩ | ⟨-, r, u, n, k, info, -, -, -, rfl⟩ := step_cases h
  · rfl
  · exact (exec_keeps_started_cfg he).2
  · rfl

/-- An accepted step leaves `started` set (10_state.md R32). -/
theorem step_sets_started {s t : State} (hrun : s.status.state = .running) (h : step s = .next t) :
    t.started = true := by
  obtain ⟨hs, -⟩ | ⟨-, i, -, he⟩ | ⟨-, r, u, n, k, info, -, -, -, rfl⟩ := step_cases h
  · exact absurd (hrun.symm.trans hs) nofun
  · exact (exec_keeps_started_cfg he).1
  · rfl

/-- In the fault state a step changes nothing (60_exceptions.md R143). -/
theorem eq_of_step_faulted {s t : State} (hs : s.status.state = .faulted) (h : step s = .next t) : t = s :=
  Host.Outcome.next.inj (h.symm.trans (step_faulted hs))

/-! ### The invariant -/

/-- The state after RESET meets the invariant under any legal binding (10_state.md R34). -/
theorem State.resetOf_inv {c : Config} (h : c.opcodes.legal) : (State.resetOf c).Inv :=
  ⟨h, ⟨List.Pairwise.nil, nofun⟩, nofun, rfl, nofun, fun _ => rfl, nofun⟩

/-- Settles O36: the default binding is legal too. -/
theorem invHoldsAtReset : Obligations.InvHoldsAtReset :=
  ⟨State.resetOf_inv OpcodeMap.standard_legal, fun _ => State.resetOf_inv⟩

/-- LOAD_MEM keeps the invariant: it adds at most an entry at an address inside memory (20_memory.md R43). -/
theorem State.Inv.loadMem {s : State} (h : s.Inv) (addr : Nat) (v : Byte) : (s.loadMem addr v).2.Inv := by
  obtain hs | ⟨-, hw⟩ := s.loadMem_cases addr v
  · rwa [hs]
  · obtain ⟨hcfg, hwf, hmem, hrest⟩ := h
    have hwf' := State.memWrite8_wf hwf hw
    obtain ⟨haddr, ht⟩ := State.memWrite8_eq_some.1 hw
    rw [← ht] at hwf' ⊢
    refine ⟨hcfg, hwf', fun c hc => ?_, hrest⟩
    obtain hc | ⟨rfl, -⟩ := Memory.mem_set hc
    · exact hmem c hc
    · exact haddr

/-- LOAD_REG keeps the invariant, of which registers are no part. -/
theorem State.Inv.loadReg {s : State} (h : s.Inv) (r : RegName) (v : Word) : (s.loadReg r v).2.Inv := by
  rw [State.loadReg_frame]
  exact h

/-- Settles O38: transaction by transaction. -/
theorem transactionsKeepInv : Obligations.TransactionsKeepInv := by
  intro s tr h
  cases tr with
  | reset => exact ⟨_, _, rfl, State.resetOf_inv h.1, rfl⟩
  | loadMem addr v => exact ⟨_, (s.loadMem addr v).2, rfl, h.loadMem addr v, by rw [s.loadMem_frame]⟩
  | loadReg r v => exact ⟨_, (s.loadReg r v).2, rfl, h.loadReg r v, by rw [s.loadReg_frame]⟩
  | step =>
    obtain ⟨t, ht⟩ := step_next s
    exact ⟨_, t, stepReply_of_step ht, stepKeepsInv s t h ht, step_keeps_cfg ht⟩
  | snapshot => exact ⟨_, s, rfl, h, rfl⟩

/-! ### STATUS -/

/-- A STATUS the core can hold has a kind exactly when FAULTED (10_state.md R27). -/
theorem Status.wf_cases {c : Config} {st : Status} (h : st.wf c = true) :
    (st.state = .running ∧ st.kind = none) ∨ (st.state = .faulted ∧ ∃ k, st.kind = some k) := by
  unfold Status.wf at h
  split at h
  · next hstate hkind => exact .inl ⟨hstate, hkind⟩
  · next k hstate hkind => exact .inr ⟨hstate, k, hkind⟩
  · cases h

/-- The codes of the four kinds are 1 to 4 (60_exceptions.md R141). -/
theorem Fault.code_bounds (k : Fault) : k.code ≠ 0 ∧ k.code.toNat ≤ 4 := by
  cases k <;> decide

/-- Settles O35: a RUNNING core holds no kind, whose code is 0, and a FAULTED one a kind, whose code is 1 to 4. -/
theorem statusKindIsZeroExactlyWhenRunning : Obligations.StatusKindIsZeroExactlyWhenRunning := by
  rintro s ⟨-, -, -, hstatus, -⟩
  obtain ⟨hstate, hkind⟩ | ⟨hstate, k, hkind⟩ := Status.wf_cases hstatus
  · rw [Status.code, hkind]
    exact ⟨iff_of_true rfl hstate, Nat.zero_le _⟩
  · obtain ⟨hne, hle⟩ := k.code_bounds
    rw [Status.code, hkind, hstate]
    exact ⟨iff_of_false hne nofun, hle⟩

/-- Settles O48: the step keeps the invariant, so its STATUS is RUNNING or holds a kind, and the reply is read off it. -/
theorem stepReplyIsTheStatus : Obligations.StepReplyIsTheStatus := by
  intro s h
  obtain ⟨t, ht⟩ := step_next s
  obtain ⟨-, -, -, hstatus, -⟩ := stepKeepsInv s t h ht
  refine ⟨_, t, stepReply_of_step ht, ht, fun hrun => by rw [Status.reply, hrun], fun hfaulted => ?_⟩
  obtain ⟨hrun, -⟩ | ⟨-, k, hkind⟩ := Status.wf_cases hstatus
  · exact absurd (hfaulted.symm.trans hrun) nofun
  · exact ⟨k, hkind, by rw [Status.reply, hfaulted, hkind]⟩

/-! ### The fault state, the boot phase, RESET and SNAPSHOT -/

/-- Settles O34: a step in the fault state changes nothing, the loads and SNAPSHOT keep STATUS, and RESET is the reset state
by definition. -/
theorem faultStateIsLeftOnlyByReset : Obligations.FaultStateIsLeftOnlyByReset := by
  intro s hs
  refine ⟨core_run_of_step_self (step_faulted hs), fun tr r t hreset h => ?_, rfl⟩
  by_cases hstep : tr = .step
  · subst hstep
    rw [eq_of_step_faulted hs (step_of_stepReply h)]
  · exact (transact_keeps h hstep hreset).1

/-- Settles O47: the loads and SNAPSHOT keep `started`, and a step sets it or, in the fault state, changes nothing. -/
theorem startedStaysUntilReset : Obligations.StartedStaysUntilReset := by
  intro s t tr r h
  have hkept (hstep : tr ≠ .step) (hreset : tr ≠ .reset) : t.started = s.started := (transact_keeps h hstep hreset).2.1
  have hset (hstep : tr = .step) (hrun : s.status.state = .running) : t.started = true := by
    subst hstep
    exact step_sets_started hrun (step_of_stepReply h)
  refine ⟨hset, hkept, fun hs hreset => ?_⟩
  by_cases hstep : tr = .step
  · cases hstate : s.status.state with
    | running => exact hset hstep hstate
    | faulted =>
      subst hstep
      rwa [eq_of_step_faulted hstate (step_of_stepReply h)]
  · exact (hkept hstep hreset).trans hs

/-- Settles O45: RESET is the reset state by definition, in which every register is 0 and memory is empty. -/
theorem resetClearsEverything : Obligations.ResetClearsEverything := fun s =>
  ⟨_, rfl, State.resetOf_reg s.cfg, fun _ => rfl, rfl, rfl, rfl, rfl, rfl, rfl, rfl⟩

/-- After the first step a load is refused (70_reset_and_hazards.md R162). -/
theorem loads_refused {s : State} (h : s.started = true) (a : Nat) (v : Byte) (r : RegName) (w : Word) :
    s.loadMem a v = (.refused, s) ∧ s.loadReg r w = (.refused, s) := by
  simp [State.loadMem, State.loadReg, h]

/-- In the boot phase LOAD_MEM outside memory says so (70_reset_and_hazards.md R163). -/
theorem State.loadMem_outside {s : State} (h : s.started = false) {a : Nat} (hout : s.cfg.memSize ≤ a) (v : Byte) :
    s.loadMem a v = (.loadOutOfBounds a, s) := by
  simp [State.loadMem, h, State.memWrite8_eq_none.2 hout]

/-- In the boot phase LOAD_MEM inside memory writes its byte (70_reset_and_hazards.md R163). -/
theorem State.loadMem_inside {s : State} (h : s.started = false) {a : Nat} (hin : a < s.cfg.memSize) (v : Byte) :
    s.loadMem a v = (.done, { s with mem := s.mem.set a v }) := by
  simp [State.loadMem, h, State.memWrite8_eq_some.2 ⟨hin, rfl⟩]

/-- Settles O46: `started` decides whether a load is taken, and the bound whether LOAD_MEM has a byte to write. -/
theorem loadsWorkInTheBootPhaseOnly : Obligations.LoadsWorkInTheBootPhaseOnly := by
  intro s a v r w hwf
  refine ⟨fun hs => ?_, fun hboot => ⟨?_, fun hout => ?_, fun hin => ?_⟩⟩
  · obtain ⟨hmem, hreg⟩ := loads_refused hs a v r w
    exact ⟨congrArg _ hmem, congrArg _ hreg⟩
  · exact ⟨_, transact_loadReg_boot hboot r w, s.reg_setReg_same r w, s.keepsAllBut_setReg r w⟩
  · exact congrArg _ (State.loadMem_outside hboot hout v)
  · have hbyte (k : Nat) : (s.mem.set a v).get k = if k = a then v else s.mem.get k := Memory.get_set hwf a k v
    exact ⟨_, congrArg _ (State.loadMem_inside hboot hin v), (hbyte a).trans (if_pos rfl),
      fun k hk => (hbyte k).trans (if_neg hk), rfl, rfl, rfl, rfl, rfl⟩

/-- Settles O49: the snapshot is made of the state's own parts. -/
theorem snapshotIsReadOnly : Obligations.SnapshotIsReadOnly := fun _ =>
  ⟨_, rfl, fun _ => rfl, rfl, fun _ => rfl⟩

end Sys2Proof.Machine
